-- ==== Sys2Proof/Config.lean ====
section
/-! DEFINITION. The implementation parameters of spec/00_scope.md R5 that are plain numbers.
The constant tables (SBOX, POLY, COEF, RC) stand in Machine/Tables.lean; the number of instances `N_INST`, which R5
leaves OPEN, is the argument `n` of `Sys2Proof.Machine.Platform`. The spec leaves no value free (R12: "No rule of this
spec draws a free value"), so there is no opaque constant here. -/

namespace Sys2Proof.Config

/-- R5 `BLOCK_BYTES`. -/
abbrev blockBytes : Nat := 64

/-- R5 `DIGEST_BYTES`. -/
abbrev digestBytes : Nat := 64

/-- R5 `ROUNDS`: cipher rounds and key-schedule rounds. -/
abbrev rounds : Nat := 10

/-- R5 `NKEYS`: round keys `K[0..10]`, round key 0 included (conflict C3). -/
abbrev nkeys : Nat := 11

/-- R5 `LEN_BITS`: width of the bit-length counter and of the length field. -/
abbrev lenBits : Nat := 256

/-- R5 `PAD_MARK`: the first padding byte. -/
abbrev padMark : BitVec 8 := 0x80

/-- R5 `PAD_ZERO_TO`: offset in the block at which the length field starts (conflict C4: byte 32, not bit 448). -/
abbrev padZeroTo : Nat := 32

/-- R5 `LMAX`: largest payload of one UPDATE command. -/
abbrev lmax : Nat := 65535

end Sys2Proof.Config
end

