-- ==== Sys2Proof/Word.lean ====
section
/-! DEFINITION. The plain value types of the engine: bytes, 64-byte blocks and 8x8 byte matrices (spec/00_scope.md R6, R7).
Everything computed on them stands in files under Sys2Proof/Machine/. -/

namespace Sys2Proof

/-- R6: a byte is 8 bits, bit 7 the most significant. -/
abbrev Byte := BitVec 8

/-- R7: a block `B` is a sequence of 64 bytes `B[0..63]`. -/
abbrev Block := Vector Byte 64

/-- R7: a matrix `M` is 8 rows by 8 columns of bytes; `M[r][c]` is row `r`, column `c`. -/
abbrev ByteMatrix := Vector (Vector Byte 8) 8

end Sys2Proof
end

