-- ==== Sys2Proof/Syntax.lean ====
section
/-! DEFINITION. What the host can send: the two commands of WHIRLPOOL-CMD version 1 (spec/30_encoding.md R62), the
transactions that carry them (R60), and the events of the host interface (R176, R191, R192). -/

namespace Sys2Proof

/-- The command set (R62), one constructor per row of spec/opcode_table.json. Internal operations (ABSORB, FLUSH, PAD,
EMIT, SUB, ..., COMPRESS) have no encoding and no row (R66); they are definitions under Machine/. -/
inductive Instr where
  /-- `UPDATE`: the payload bytes `d[0..len-1]` themselves (R63). -/
  | update (d : List Byte)
  /-- `FINALIZE`: no operand. -/
  | finalize
deriving DecidableEq, Repr

/-- R60: a command transaction is a 32-bit header and a payload, delivered as one unit. -/
structure Transaction where
  header : BitVec 32
  payload : List Byte
deriving DecidableEq, Repr

/-- What the host does to an instance (R176), one event per step. -/
inductive HostEvent where
  /-- The host issues a command transaction, well-formed or not. -/
  | command (t : Transaction)
  /-- The host asserts `RST` between two commands (R191). -/
  | reset
  /-- The host asserts `RST` while the command `t` is in progress (R192): the command is abandoned. -/
  | resetDuring (t : Transaction)
deriving DecidableEq, Repr

end Sys2Proof
end

