-- ==== Sys2Proof/WellFormed.lean ====
section
/-! DEFINITION. Which instructions have an encoding (spec/30_encoding.md R62, R63). -/

namespace Sys2Proof

/-- R62, R63: `len` is a 16-bit number, so an UPDATE payload has 0 to `LMAX` = 65535 bytes; FINALIZE has no operand. -/
def Instr.wellFormed : Instr → Bool
  | .update d => d.length ≤ Config.lmax
  | .finalize => true

end Sys2Proof
end

