-- ==== Sys2Proof/Decode.lean ====
section
/-! DEFINITION. The command format `CMD` (spec/30_encoding.md R61), the total decoder (R67), the byte-wide port (R61,
R68), and the encoder (R62). Decoding reads no engine state. -/

namespace Sys2Proof

/-- The four ways a transaction is illegal, R65 (a) to (d). All four are answered alike, `ERR_ILLEGAL` (R164). -/
inductive Illegal where
  /-- R65 (a): `h[31:24]` is neither `0x01` nor `0x02`. -/
  | reservedOp
  /-- R65 (b): `h[23:16]` is not `0x00`. -/
  | nonzeroField
  /-- R65 (c): FINALIZE with `h[15:0]` not zero. -/
  | finalizeLength
  /-- R65 (d): the payload is longer or shorter than `h[15:0]` says. -/
  | payloadLength
deriving DecidableEq, Repr

/-- R61: bits 31:24, the operation code. -/
def headerOp (h : BitVec 32) : BitVec 8 := h.extractLsb' 24 8

/-- R61: bits 23:16, which must be zero. -/
def headerZero (h : BitVec 32) : BitVec 8 := h.extractLsb' 16 8

/-- R61: bits 15:0, the number of payload bytes, unsigned. -/
def headerLen (h : BitVec 32) : BitVec 16 := h.extractLsb' 0 16

/-- R67, in the rule's order of tests. -/
def decode (t : Transaction) : Except Illegal Instr :=
  if headerZero t.header ≠ 0x00 then .error .nonzeroField
  else if t.payload.length ≠ (headerLen t.header).toNat then .error .payloadLength
  else if headerOp t.header = 0x01 then .ok (.update t.payload)
  else if headerOp t.header = 0x02 then
    if headerLen t.header = 0 then .ok .finalize else .error .finalizeLength
  else .error .reservedOp

/-- A row of the opcode table (R62). -/
structure OpcodeRow where
  mnemonic : String
  value : BitVec 32
  mask : BitVec 32
deriving DecidableEq, Repr

/-- R62: "A header `h` selects a row when `h & mask = match`." -/
def OpcodeRow.selects (row : OpcodeRow) (h : BitVec 32) : Bool := h &&& row.mask = row.value

/-- R62, first row. -/
def updateRow : OpcodeRow := ⟨"UPDATE", 0x01000000, 0xFFFF0000⟩

/-- R62, second row. -/
def finalizeRow : OpcodeRow := ⟨"FINALIZE", 0x02000000, 0xFFFFFFFF⟩

/-! ### The byte-wide port -/

/-- R61: on a byte-wide port the header travels most significant byte first, then the payload in index order. -/
def Transaction.toWire (t : Transaction) : List Byte :=
  [t.header.extractLsb' 24 8, t.header.extractLsb' 16 8, t.header.extractLsb' 8 8, t.header.extractLsb' 0 8] ++ t.payload

/-- The transaction that the bytes of one delimited unit carry (R60, R61); `none` when they do not even fill the
4-byte header, which is no transaction at all (log entry 10). -/
def Transaction.ofWire : List Byte → Option Transaction
  | op :: zero :: lenHi :: lenLo :: payload => some ⟨op ++ zero ++ lenHi ++ lenLo, payload⟩
  | _ => none

/-- Why the bytes of one unit on a byte-wide port are no command. -/
inductive WireRejection where
  /-- Fewer than 4 bytes: no transaction (log entry 10). -/
  | truncatedHeader
  /-- A transaction, but an illegal one (R65). -/
  | illegal (why : Illegal)
deriving DecidableEq, Repr

/-- The decoder on the bytes of one unit, total on any bytes. -/
def decodeWire (bs : List Byte) : Except WireRejection Instr :=
  match Transaction.ofWire bs with
  | none => .error .truncatedHeader
  | some t =>
    match decode t with
    | .error why => .error (.illegal why)
    | .ok i => .ok i

/-- R68: the whole command is `4 + len` bytes, and `len` alone gives the length: cut the first command off an undelimited
byte stream, with the bytes after it; `none` while the stream does not hold a whole command yet. -/
def Transaction.takeFirst (bs : List Byte) : Option (Transaction × List Byte) :=
  match Transaction.ofWire bs with
  | none => none
  | some t =>
    let n := (headerLen t.header).toNat
    if t.payload.length < n then none else some (⟨t.header, t.payload.take n⟩, t.payload.drop n)

/-! ### The encoder -/

/-- R62: the transaction of an instruction. -/
def encode : Instr → Transaction
  | .update d => ⟨0x01#8 ++ 0x00#8 ++ BitVec.ofNat 16 d.length, d⟩
  | .finalize => ⟨0x02#8 ++ 0x00#8 ++ 0x0000#16, []⟩

/-- The bytes of an instruction on a byte-wide port (R61, R69). -/
def encodeWire (i : Instr) : List Byte := (encode i).toWire

/-! ### The opcode table's numbering -/

/-- The transaction whose bits are `w` in the numbering of spec/opcode_table.json: the header is bits 31:0, and payload
byte `j` is bits `32+8j .. 39+8j`, zero above `nbits`; there are as many payload bytes as `len` says (log entry 7). -/
def tableTransaction (nbits w : Nat) : Transaction :=
  let v := w % 2 ^ nbits
  let h := BitVec.ofNat 32 v
  ⟨h, (List.range (headerLen h).toNat).map fun j => BitVec.ofNat 8 (v >>> (32 + 8 * j))⟩

/-- The instruction the decoder reads from the table word `w`. -/
def decodeTableWord (nbits w : Nat) : Option Instr :=
  match decode (tableTransaction nbits w) with
  | .ok i => some i
  | .error _ => none

end Sys2Proof
end

