-- ==== Sys2Proof/Machine/Layout.lean ====
section
/-! DEFINITION. Byte order (spec/20_memory.md section 1): block to matrix and back (R42, R44), the big-endian length field
(R6, R43), and writing consecutive bytes of a block (R9). -/

namespace Sys2Proof.Machine

/-- The matrix with `M[r][c] = f r c`. -/
def tabulate (f : Fin 8 → Fin 8 → Byte) : ByteMatrix := Vector.ofFn fun r => Vector.ofFn fun c => f r c

/-- The all-zero matrix, the `IV` of R5. -/
def zeroMatrix : ByteMatrix := Vector.replicate 8 (Vector.replicate 8 0)

/-- R42: `Mat(B)[r][c] = B[8*c + r]`: column `c` is the bytes `8c..8c+7` of the block, top to bottom. -/
def mat (b : Block) : ByteMatrix := tabulate fun r c => b[8 * c.val + r.val]

/-- R42, R44: `Blk(M)[k] = M[k mod 8][k div 8]`. -/
def blk (m : ByteMatrix) : Block := Vector.ofFn fun k => m[k.val % 8][k.val / 8]

/-- R6: `BE256(n)`, byte `j` is `(n >> (8*(31-j))) & 0xFF`. -/
def be256 (n : BitVec 256) : Vector Byte 32 := Vector.ofFn fun j => n.extractLsb' (8 * (31 - j.val)) 8

/-- R9 `MemWrite(BUF, a, n, v)`: the bytes `v` at indices `a, a+1, ...` of the block; every caller keeps
`a + v.length <= 64`. -/
def memWrite (b : Block) (a : Nat) (v : List Byte) : Block :=
  Vector.ofFn fun i => if h : a ≤ i.val ∧ i.val - a < v.length then v[i.val - a]'h.2 else b[i.val]

end Sys2Proof.Machine
end

