-- ==== Sys2Proof/Machine/Tables.lean ====
section
/-! DEFINITION. The constant tables and field arithmetic of spec/40_constant_tables.md: SBOX (R81), its mini-box network
(R82), the product of GF(2^8) (R84, R85), COEF (R87) and the round constants (R89). Pure data: nothing writes them (R29,
R52, R90). -/

namespace Sys2Proof.Machine

/-- R81, row 0x of the table. -/
def sboxRow0 : Vector Byte 16 :=
  #v[0x18, 0x23, 0xC6, 0xE8, 0x87, 0xB8, 0x01, 0x4F, 0x36, 0xA6, 0xD2, 0xF5, 0x79, 0x6F, 0x91, 0x52]

/-- R81, row 1x of the table. -/
def sboxRow1 : Vector Byte 16 :=
  #v[0x60, 0xBC, 0x9B, 0x8E, 0xA3, 0x0C, 0x7B, 0x35, 0x1D, 0xE0, 0xD7, 0xC2, 0x2E, 0x4B, 0xFE, 0x57]

/-- R81, row 2x of the table. -/
def sboxRow2 : Vector Byte 16 :=
  #v[0x15, 0x77, 0x37, 0xE5, 0x9F, 0xF0, 0x4A, 0xDA, 0x58, 0xC9, 0x29, 0x0A, 0xB1, 0xA0, 0x6B, 0x85]

/-- R81, row 3x of the table. -/
def sboxRow3 : Vector Byte 16 :=
  #v[0xBD, 0x5D, 0x10, 0xF4, 0xCB, 0x3E, 0x05, 0x67, 0xE4, 0x27, 0x41, 0x8B, 0xA7, 0x7D, 0x95, 0xD8]

/-- R81, row 4x of the table. -/
def sboxRow4 : Vector Byte 16 :=
  #v[0xFB, 0xEE, 0x7C, 0x66, 0xDD, 0x17, 0x47, 0x9E, 0xCA, 0x2D, 0xBF, 0x07, 0xAD, 0x5A, 0x83, 0x33]

/-- R81, row 5x of the table. -/
def sboxRow5 : Vector Byte 16 :=
  #v[0x63, 0x02, 0xAA, 0x71, 0xC8, 0x19, 0x49, 0xD9, 0xF2, 0xE3, 0x5B, 0x88, 0x9A, 0x26, 0x32, 0xB0]

/-- R81, row 6x of the table. -/
def sboxRow6 : Vector Byte 16 :=
  #v[0xE9, 0x0F, 0xD5, 0x80, 0xBE, 0xCD, 0x34, 0x48, 0xFF, 0x7A, 0x90, 0x5F, 0x20, 0x68, 0x1A, 0xAE]

/-- R81, row 7x of the table. -/
def sboxRow7 : Vector Byte 16 :=
  #v[0xB4, 0x54, 0x93, 0x22, 0x64, 0xF1, 0x73, 0x12, 0x40, 0x08, 0xC3, 0xEC, 0xDB, 0xA1, 0x8D, 0x3D]

/-- R81, row 8x of the table. -/
def sboxRow8 : Vector Byte 16 :=
  #v[0x97, 0x00, 0xCF, 0x2B, 0x76, 0x82, 0xD6, 0x1B, 0xB5, 0xAF, 0x6A, 0x50, 0x45, 0xF3, 0x30, 0xEF]

/-- R81, row 9x of the table. -/
def sboxRow9 : Vector Byte 16 :=
  #v[0x3F, 0x55, 0xA2, 0xEA, 0x65, 0xBA, 0x2F, 0xC0, 0xDE, 0x1C, 0xFD, 0x4D, 0x92, 0x75, 0x06, 0x8A]

/-- R81, row Ax of the table. -/
def sboxRowA : Vector Byte 16 :=
  #v[0xB2, 0xE6, 0x0E, 0x1F, 0x62, 0xD4, 0xA8, 0x96, 0xF9, 0xC5, 0x25, 0x59, 0x84, 0x72, 0x39, 0x4C]

/-- R81, row Bx of the table. -/
def sboxRowB : Vector Byte 16 :=
  #v[0x5E, 0x78, 0x38, 0x8C, 0xD1, 0xA5, 0xE2, 0x61, 0xB3, 0x21, 0x9C, 0x1E, 0x43, 0xC7, 0xFC, 0x04]

/-- R81, row Cx of the table. -/
def sboxRowC : Vector Byte 16 :=
  #v[0x51, 0x99, 0x6D, 0x0D, 0xFA, 0xDF, 0x7E, 0x24, 0x3B, 0xAB, 0xCE, 0x11, 0x8F, 0x4E, 0xB7, 0xEB]

/-- R81, row Dx of the table. -/
def sboxRowD : Vector Byte 16 :=
  #v[0x3C, 0x81, 0x94, 0xF7, 0xB9, 0x13, 0x2C, 0xD3, 0xE7, 0x6E, 0xC4, 0x03, 0x56, 0x44, 0x7F, 0xA9]

/-- R81, row Ex of the table. -/
def sboxRowE : Vector Byte 16 :=
  #v[0x2A, 0xBB, 0xC1, 0x53, 0xDC, 0x0B, 0x9D, 0x6C, 0x31, 0x74, 0xF6, 0x46, 0xAC, 0x89, 0x14, 0xE1]

/-- R81, row Fx of the table. -/
def sboxRowF : Vector Byte 16 :=
  #v[0x16, 0x3A, 0x69, 0x09, 0x70, 0xB6, 0xD0, 0xED, 0xCC, 0x42, 0x98, 0xA4, 0x28, 0x5C, 0xF8, 0x86]

/-- R81: the sixteen rows, indexed by the high nibble. -/
def sboxRows : Vector (Vector Byte 16) 16 :=
  #v[sboxRow0, sboxRow1, sboxRow2, sboxRow3, sboxRow4, sboxRow5, sboxRow6, sboxRow7,
    sboxRow8, sboxRow9, sboxRowA, sboxRowB, sboxRowC, sboxRowD, sboxRowE, sboxRowF]

/-- R81: `SBOX[16*i + j]` is row `i`, column `j`: the row is the high nibble of the index, the column the low nibble
(R45). This table is the normative form. -/
def sbox (u : Byte) : Byte := (sboxRows[u.toNat / 16]'(by omega))[u.toNat % 16]'(by omega)

/-! ### The mini-box network, the second definition of the same table -/

/-- R82: the 4-bit table `E`. -/
def miniE : Vector (BitVec 4) 16 := #v[0x1, 0xB, 0x9, 0xC, 0xD, 0x6, 0xF, 0x3, 0xE, 0x8, 0x7, 0x4, 0xA, 0x2, 0x5, 0x0]

/-- R82: the 4-bit table `Ei`, the inverse of `E`. -/
def miniEi : Vector (BitVec 4) 16 := #v[0xF, 0x0, 0xD, 0x7, 0xB, 0xE, 0x5, 0xA, 0x9, 0x2, 0xC, 0x1, 0x3, 0x4, 0x8, 0x6]

/-- R82: the 4-bit table `R`. -/
def miniR : Vector (BitVec 4) 16 := #v[0x7, 0xC, 0xB, 0xD, 0xE, 0x4, 0x9, 0xF, 0x6, 0x3, 0x8, 0xA, 0x2, 0x5, 0x1, 0x0]

/-- The entry of a 4-bit table at a 4-bit index. -/
def nibbleAt (t : Vector (BitVec 4) 16) (v : BitVec 4) : BitVec 4 := t[v.toNat]'v.isLt

/-- R82: the S-box as a network of the three 4-bit tables. -/
def sboxNetwork (u : Byte) : Byte :=
  let a := nibbleAt miniE (u.extractLsb' 4 4)
  let b := nibbleAt miniEi (u.extractLsb' 0 4)
  let t := nibbleAt miniR (a ^^^ b)
  let hi := nibbleAt miniE (a ^^^ t)
  let lo := nibbleAt miniEi (b ^^^ t)
  hi ++ lo

/-! ### GF(2^8) -/

/-- R85: multiplication by `x`; the bit shifted out is folded back by the reduction polynomial `0x11D` (R84). -/
def xtime (a : Byte) : Byte :=
  let t := a <<< 1
  if a.getLsbD 7 then t ^^^ 0x1D else t

/-- R85: the loop of the product: bits `i, i+1, ..., i+n-1` of `b`, with the running `acc` and `p`. -/
def gmulLoop (b : Byte) : (n i : Nat) → (acc p : Byte) → Byte
  | 0, _, acc, _ => acc
  | n + 1, i, acc, p => gmulLoop b n (i + 1) (if b.getLsbD i then acc ^^^ p else acc) (xtime p)

/-- R85: the field product `a ⊗ b`. -/
def gmul (a b : Byte) : Byte := gmulLoop b 8 0 0x00 a

/-! ### Diffusion coefficients and round constants -/

/-- R87: `COEF[0..7]`. -/
def coef : Vector Byte 8 := #v[0x01, 0x01, 0x04, 0x01, 0x08, 0x05, 0x02, 0x09]

/-- R87: the circulant diffusion matrix, `D[r][k] = COEF[(r - k) mod 8]`. -/
def diffusion (r k : Fin 8) : Byte := coef[(r - k).val]

/-- R89: for round `i` in 1..10, `RC[i][r][0] = SBOX[8*(i-1) + r]` and zero in columns 1..7, as the matrix index
`M[r][c]`. `RC[0]` does not exist; no caller asks for it. -/
def roundConstantAt (i : Nat) (r c : Fin 8) : Byte := if c = 0 then sbox (BitVec.ofNat 8 (8 * (i - 1) + r.val)) else 0x00

end Sys2Proof.Machine
end

