-- ==== Sys2Proof/Machine/Compression.lean ====
section
/-! DEFINITION. The compression function of spec/41_compression.md, innermost first: the four layers, the round, the key
schedule, the W cipher and the feed-forward. Pure functions on matrices (R105 (e)): the working registers `K`, `S`, `i`
are local values, not state (R30). -/

namespace Sys2Proof.Machine

/-- R100 SUB: byte-wise substitution. -/
def subLayer (m : ByteMatrix) : ByteMatrix := tabulate fun r c => sbox m[r][c]

/-- R101 SHIFT: row `r` is rotated `r` places toward higher columns, `M[r][(c - r) mod 8]`. -/
def shiftLayer (m : ByteMatrix) : ByteMatrix := tabulate fun r c => m[r][c - r]

/-- XOR over `k` in 0..7. -/
def xorOver (f : Fin 8 → Byte) : Byte := (List.finRange 8).foldl (fun acc k => acc ^^^ f k) 0x00

/-- R102 MIX: `D · M` over GF(2^8), each column by itself. -/
def mixLayer (m : ByteMatrix) : ByteMatrix := tabulate fun r c => xorOver fun k => gmul (diffusion r k) m[k][c]

/-- R103 ADDKEY: XOR cell by cell. -/
def addKey (m a : ByteMatrix) : ByteMatrix := tabulate fun r c => m[r][c] ^^^ a[r][c]

/-- R104 ROUND: SUB, SHIFT, MIX, ADDKEY, in that order; all twenty uses are this same function (conflict C2). -/
def cipherRound (m a : ByteMatrix) : ByteMatrix := addKey (mixLayer (shiftLayer (subLayer m))) a

/-- R89: the matrix `RC[i]`. -/
def roundConstant (i : Nat) : ByteMatrix := tabulate (roundConstantAt i)

/-- R106: round key `i`: `K[0]` is the chaining value unchanged (conflict C1), `K[i] = ROUND(K[i-1], RC[i])`. -/
def roundKey (kin : ByteMatrix) : Nat → ByteMatrix
  | 0 => kin
  | i + 1 => cipherRound (roundKey kin i) (roundConstant (i + 1))

/-- R106 KEYSCHED: the eleven round keys `K[0..10]` (conflict C3). -/
def keySchedule (kin : ByteMatrix) : Vector ByteMatrix Config.nkeys := Vector.ofFn fun i => roundKey kin i.val

/-- R107: the cipher state after `i` rounds under the keys `K`: whitening with `K[0]`, then round `i` uses `K[i]`. -/
def cipherState (keys : Vector ByteMatrix Config.nkeys) (p : ByteMatrix) : (i : Nat) → i ≤ Config.rounds → ByteMatrix
  | 0, _ => addKey p keys[0]
  | i + 1, h => cipherRound (cipherState keys p i (by omega)) (keys[i + 1]'(by simp only [Config.rounds, Config.nkeys] at *; omega))

/-- R107 WCIPHER: ten full rounds. -/
def wCipher (kin p : ByteMatrix) : ByteMatrix := cipherState (keySchedule kin) p Config.rounds (Nat.le_refl _)

/-- R108 COMPRESS: the chaining value is the key and the block is the plaintext; feed-forward of both. -/
def compress (hin b : ByteMatrix) : ByteMatrix := addKey (addKey (wCipher hin b) b) hin

end Sys2Proof.Machine
end

