-- ==== Sys2Proof/Machine/State.lean ====
section
/-! DEFINITION. The state of one engine instance (spec/10_state.md R21), its response port, and the host events still to
come; the state after reset (R32). -/

namespace Sys2Proof.Machine

/-- R27: the state-machine register. Its codes are those of `Phase.code`; the value 3 is never written and has no
constructor (spec/93_implementation_defined.md U2). -/
inductive Phase where
  /-- `ACCUM` = 0, the document's Empty and Accumulating. -/
  | accum
  /-- `FINAL` = 1: the digest has been emitted. -/
  | final
  /-- `FAILED` = 2: an error was raised in ACCUM and the instance is dead. -/
  | failed
deriving DecidableEq, Repr

/-- R64: the result code of a response. `0x04`..`0xFF` are never produced (U11). -/
inductive Status where
  | ok
  | errMisuse
  | errCapacity
  | errIllegal
deriving DecidableEq, Repr

/-- R60, R64: a response is a status and data bytes: the 64 digest bytes of an OK answer to FINALIZE, else none. -/
structure Response where
  status : Status
  data : List Byte
deriving DecidableEq, Repr

/-- R160: the errors of the engine. They are answered by a response and a next state, never by a stop of the model. -/
inductive EngineError where
  | misuse
  | capacity
  | illegal
deriving DecidableEq, Repr

/-- One engine instance (R21: "The complete per-instance architectural state is five registers"), with its response port
(R32 "pending response") and the host's events (R33: held by the host, log entry 1). -/
structure State where
  /-- R22: the chaining value, `H[r][c]`. -/
  H : ByteMatrix
  /-- R23: the block buffer. -/
  BUF : Block
  /-- R24: the number of valid bytes in `BUF`, 0..63 between commands (log entry 4). -/
  BUFN : Fin 64
  /-- R25: the message length so far, in bits. -/
  LEN : BitVec 256
  /-- R27: the state-machine register. -/
  PHASE : Phase
  /-- The response of the last command, as the host reads it (log entry 2); none after reset. -/
  response : Option Response
  /-- What the host does next, oldest first (log entry 1): the model's own field. -/
  inputs : List HostEvent
deriving DecidableEq, Repr

/-- No step of this machine faults: every error of R160 is reported in a response and is a next state (R166), and nothing
else can go wrong ("No error conditions — always succeeds", R108). Closed, with no constructor. -/
inductive Fault where
deriving DecidableEq, Repr

/-- Why a step could have no meaning in the model. -/
inductive Refusal where
  /-- Raised only by an arm of `exec` whose instruction has no meaning yet; no arm is left so. Safe. -/
  | notModelled (mnemonic : String)
deriving DecidableEq, Repr

/-- R32: the state right after reset. All five registers have the values of the rule; no response is pending and no host
event has been given (log entry 6). -/
def State.reset : State where
  H := Vector.replicate 8 (Vector.replicate 8 0)
  BUF := Vector.replicate 64 0
  BUFN := 0
  LEN := 0
  PHASE := .accum
  response := none
  inputs := []

end Sys2Proof.Machine
end

