-- ==== Sys2Proof/Machine/Operands.lean ====
section
/-! DEFINITION. Operand assembly (spec/30_encoding.md R63) and the coded forms of what the engine gives out: status codes
and the response format (R64), phase codes (spec/10_state.md R27). -/

namespace Sys2Proof.Machine

/-- R63: the bit count of a payload, on unbounded naturals: `8 * len`, never sign-extended, scaled or wrapped. -/
def payloadBits (d : List Byte) : Nat := 8 * d.length

/-- R64: the status codes. -/
def Status.code : Status → Byte
  | .ok => 0x00
  | .errMisuse => 0x01
  | .errCapacity => 0x02
  | .errIllegal => 0x03

/-- R160: the status code of an error. -/
def EngineError.status : EngineError → Status
  | .misuse => .errMisuse
  | .capacity => .errCapacity
  | .illegal => .errIllegal

/-- R27: the two-bit codes of the phases. -/
def Phase.code : Phase → BitVec 2
  | .accum => 0
  | .final => 1
  | .failed => 2

/-- R64, R68: the bytes of a response on a byte-wide port: the status, then the data, `digest[0]` first. -/
def Response.toWire (r : Response) : List Byte := r.status.code :: r.data

end Sys2Proof.Machine
end

