-- ==== Sys2Proof/Machine/Flags.lean ====
section
/-! DEFINITION. The engine's only condition state is `PHASE`, `BUFN` and `LEN` (spec/00_scope.md R11, spec/10_state.md
R27): the conditions commands test. ABSORB and FLUSH (Ops.lean) write the counters. -/

namespace Sys2Proof.Machine

/-- R130: a well-formed command runs only in ACCUM. -/
def State.accepting (s : State) : Bool := s.PHASE = .accum

/-- R133: the capacity check, on unbounded naturals: the total would exceed `2^256 - 1` bits. -/
def State.exceedsCapacity (s : State) (d : List Byte) : Bool := 2 ^ Config.lenBits ≤ s.LEN.toNat + payloadBits d

end Sys2Proof.Machine
end

