-- ==== Sys2Proof/Machine/Ops.lean ====
section
/-! DEFINITION. The named operations on the state: responding (spec/30_encoding.md R64), error entry (spec/60_exceptions.md
R166) and reset, the only way back (R168, spec/70_reset_and_hazards.md R191), and the sequencer's micro-operations FLUSH,
ABSORB, PAD and EMIT (spec/42_hash_engine.md R135 to R141). -/

namespace Sys2Proof.Machine

/-- R9 `respond(code, data)`: the command's one response (R131). -/
def respond (st : Status) (data : List Byte) (s : State) : State := { s with response := some ⟨st, data⟩ }

/-- R166, R138 "zeroise": `H <- 0; BUF <- 0; BUFN <- 0; LEN <- 0`. -/
def zeroise (s : State) : State := { s with H := zeroMatrix, BUF := Vector.replicate 64 0, BUFN := 0, LEN := 0 }

/-- R9 `PHASE <- p`. -/
def setPhase (p : Phase) (s : State) : State := { s with PHASE := p }

/-- The host's events after the one taken. -/
def withInputs (rest : List HostEvent) (s : State) : State := { s with inputs := rest }

/-! ### Error entry, and the way out -/

/-- R166 `raise E`: in ACCUM zeroise and go to FAILED; in FINAL and FAILED no register changes; answer the code, no data.
Nothing is saved and control goes nowhere: there is no handler. -/
def raiseError (e : EngineError) (s : State) : State :=
  respond e.status [] (if s.accepting then setPhase .failed (zeroise s) else s)

/-- R130: a well-formed command in FINAL or FAILED raises Misuse; in ACCUM it runs. -/
def whenAccepting (run : State → State) (s : State) : State := if s.accepting then run s else raiseError .misuse s

/-- R191, R192: the reset event sets the five registers to the values of R32 in any phase and leaves no response pending;
the host's later events are the host's. -/
def resetEngine (s : State) : State := { State.reset with inputs := s.inputs }

/-! ### FLUSH, ABSORB, PAD, EMIT -/

/-- R136 FLUSH: called exactly where `BUFN` has become 64, a value no state holds between steps (log entry 4). `BUF` is
not cleared. -/
def flush (s : State) : State := { s with H := compress s.H (mat s.BUF), BUFN := 0 }

/-- R135, the two writes of ABSORB before its test of `BUFN`: the byte into `BUF[BUFN]`, and `LEN <- LEN + 8`. -/
def storeByte (b : Byte) (s : State) : State := { s with BUF := s.BUF.set s.BUFN.val b, LEN := s.LEN + 8 }

/-- R9 `BUFN <- n`, for a value that stands between steps. -/
def setFill (n : Fin 64) (s : State) : State := { s with BUFN := n }

/-- R135 ABSORB: store the byte, count it, and flush at once when the block is complete. -/
def absorb (b : Byte) (s : State) : State :=
  if h : s.BUFN.val + 1 < 64 then setFill ⟨s.BUFN.val + 1, h⟩ (storeByte b s) else flush (storeByte b s)

/-- R132: the loop `for j in 0..n-1: ABSORB(d[j])`. -/
def absorbAll (d : List Byte) (s : State) : State := d.foldl (fun s b => absorb b s) s

/-- `n` zero bytes. -/
def zeros (n : Nat) : List Byte := List.replicate n 0x00

/-- R9 `MemWrite(BUF, a, |v|, v)` on the instance's buffer. -/
def writeBuf (a : Nat) (v : List Byte) (s : State) : State := { s with BUF := memWrite s.BUF a v }

/-- R139, the last lines of PAD, with `BUFN` = `n`, at most 32: zeros up to byte 32, the length field, FLUSH. -/
def padTail (l : BitVec 256) (n : Nat) (s : State) : State :=
  flush (writeBuf Config.padZeroTo (be256 l).toList (writeBuf n (zeros (Config.padZeroTo - n)) s))

/-- R139 PAD: the marker byte at `BUF[BUFN]`; when the length field no longer fits, zeros to the end of the block and a
FLUSH first; then the block that carries the length. -/
def pad (l : BitVec 256) (s : State) : State :=
  let marked := writeBuf s.BUFN.val [Config.padMark] s
  let n := s.BUFN.val + 1
  if 32 < n then padTail l 0 (flush (writeBuf n (zeros (64 - n)) marked)) else padTail l n marked

/-- R141 EMIT: the digest is `Blk(H)`. -/
def emit (s : State) : List Byte := (blk s.H).toList

/-! ### Taking the host's next event -/

/-- The host's next event, and the state once it is taken (log entry 1); `none` when the host does nothing. -/
def fetch (s : State) : Option (HostEvent × State) :=
  match s.inputs with
  | [] => none
  | e :: rest => some (e, withInputs rest s)

end Sys2Proof.Machine
end

