-- ==== Sys2Proof/Machine/Sequencer.lean ====
section
/-! DEFINITION. The meanings of the two commands (spec/42_hash_engine.md R132, R138) and of an illegal transaction (R130,
spec/60_exceptions.md R164). Each includes the phase check of the dispatch rule R130, in the rule's order (log entry 5). -/

namespace Sys2Proof.Machine

/-- R132 UPDATE in ACCUM: the capacity check (R133) before any byte is absorbed, then the loop of ABSORB, then OK. -/
def updateBody (d : List Byte) (s : State) : State :=
  if s.exceedsCapacity d then raiseError .capacity s else respond .ok [] (absorbAll d s)

/-- R138 FINALIZE in ACCUM: PAD with the length before padding, EMIT, zeroise, `PHASE <- FINAL`, OK with the digest. -/
def finalizeBody (s : State) : State :=
  let padded := pad s.LEN s
  respond .ok (emit padded) (setPhase .final (zeroise padded))

/-- R132 UPDATE. -/
def execUpdate (d : List Byte) (s : State) : Host.Outcome State Fault Refusal := .next (whenAccepting (updateBody d) s)

/-- R138 FINALIZE. -/
def execFinalize (s : State) : Host.Outcome State Fault Refusal := .next (whenAccepting finalizeBody s)

/-- R164: an illegal transaction, in every phase and whatever the reason. -/
def execIllegal (s : State) : Host.Outcome State Fault Refusal := .next (raiseError .illegal s)

end Sys2Proof.Machine
end

