-- ==== Sys2Proof/Machine/Dispatch.lean ====
section
/-! DEFINITION. The meaning of every command, one arm per constructor (spec/42_hash_engine.md R130). -/

namespace Sys2Proof.Machine

def exec (i : Instr) (s : State) : Host.Outcome State Fault Refusal :=
  match i with
  | .update d => Sys2Proof.Machine.execUpdate d s
  | .finalize => Sys2Proof.Machine.execFinalize s

end Sys2Proof.Machine
end

