-- ==== Sys2Proof/Machine/Step.lean ====
section
/-! DEFINITION. One step of one instance: it takes the host's next event (spec/42_hash_engine.md R130,
spec/70_reset_and_hazards.md R191, R192), and does nothing when there is none (R20, R143). -/

namespace Sys2Proof.Machine

/-- R20, R130, R191, R192: a command is one atomic step from dispatch to response (R49); decoding comes first and reads no
state (R67). -/
def step (s : State) : Host.Outcome State Fault Refusal :=
  match fetch s with
  | none => .next s
  | some (.reset, s') => .next (resetEngine s')
  | some (.resetDuring _, s') => .next (resetEngine s')
  | some (.command t, s') =>
    match decode t with
    | .error _ => execIllegal s'
    | .ok i => exec i s'

/-- The host sends the table word `w` next (log entry 6): the command goes to the front of the host's events, and nothing
else changes. -/
def State.withFetchWord (s : State) (nbits w : Nat) : State :=
  { s with inputs := .command (tableTransaction nbits w) :: s.inputs }

end Sys2Proof.Machine
end

