-- ==== Sys2Proof/Machine/Assembler.lean ====
section
/-! DEFINITION. The source notation of spec/30_encoding.md R69 and R70: its lines, what each expands to, and the reading of
its text. It is a host-side tool; the engine never sees it. -/

namespace Sys2Proof.Machine

/-- R69: the operand of a line: bytes, or a quoted ASCII string, given by the 7-bit codes of its characters. -/
inductive AsmOperand where
  | bytes (d : List Byte)
  | quoted (cs : List (BitVec 7))
deriving DecidableEq, Repr

/-- R69, R70: one line of a program. -/
inductive AsmLine where
  | update (a : AsmOperand)
  | finalize
  /-- Pseudo-instruction `HASH <bytes>`. -/
  | hash (a : AsmOperand)
  /-- Directive `.reset`. -/
  | reset
  /-- Directive `.expect <status> [<hex>]`. -/
  | expect (r : Response)
deriving DecidableEq, Repr

/-- R69: a quoted string contributes the ASCII code of each character and no terminator. -/
def AsmOperand.value : AsmOperand → List Byte
  | .bytes d => d
  | .quoted cs => cs.map fun c => c.zeroExtend 8

/-- R70, with `fuel` at least the number of payloads less one: payloads of `LMAX` bytes, in order, and a last one. -/
def splitPayload : (fuel : Nat) → List Byte → List (List Byte)
  | 0, d => [d]
  | fuel + 1, d =>
    if d.length ≤ Config.lmax then [d] else d.take Config.lmax :: splitPayload fuel (d.drop Config.lmax)

/-- R70: `UPDATE <bytes>` with more than 65535 bytes is `ceil(n / 65535)` commands, each but the last of 65535 bytes. -/
def updatePayloads (d : List Byte) : List (List Byte) := splitPayload (d.length / Config.lmax) d

/-- The event that issues an instruction. -/
def issue (i : Instr) : HostEvent := .command (encode i)

/-- R69, R70: the host events a line stands for. `.expect` assembles to nothing. -/
def AsmLine.assemble : AsmLine → List HostEvent
  | .update a => (updatePayloads a.value).map fun d => issue (.update d)
  | .finalize => [issue .finalize]
  | .hash a => ((updatePayloads a.value).map fun d => issue (.update d)) ++ [issue .finalize]
  | .reset => [.reset]
  | .expect _ => []

/-- R69: a program is its lines in order. -/
def assemble (p : List AsmLine) : List HostEvent := p.flatMap AsmLine.assemble

/-! ### Reading the text of a program (log entry 16) -/

/-- A space or a tab. -/
def isBlank (c : Char) : Bool := c = ' ' || c = '\t'

/-- R69: what stands before the comment of a line; a `;` inside a quoted string starts none. -/
def beforeComment : (inQuote : Bool) → List Char → List Char
  | _, [] => []
  | false, ';' :: _ => []
  | q, c :: cs => c :: beforeComment (if c = '"' then !q else q) cs

/-- The text without the blanks at its two ends. -/
def trimBlanks (cs : List Char) : List Char := ((cs.dropWhile isBlank).reverse.dropWhile isBlank).reverse

/-- R6: one digit of a hex string. -/
def hexDigit (c : Char) : Option (BitVec 4) :=
  if '0' ≤ c ∧ c ≤ '9' then some (BitVec.ofNat 4 (c.toNat - '0'.toNat))
  else if 'A' ≤ c ∧ c ≤ 'F' then some (BitVec.ofNat 4 (c.toNat - 'A'.toNat + 10))
  else if 'a' ≤ c ∧ c ≤ 'f' then some (BitVec.ofNat 4 (c.toNat - 'a'.toNat + 10))
  else none

/-- R6: a hex string, two digits a byte, high nibble first; blanks may stand between bytes. -/
def hexBytes : List Char → Option (List Byte)
  | [] => some []
  | [c] => if isBlank c then some [] else none
  | hi :: lo :: cs =>
    if isBlank hi then hexBytes (lo :: cs)
    else
      match hexDigit hi, hexDigit lo, hexBytes cs with
      | some h, some l, some d => some ((h ++ l) :: d)
      | _, _, _ => none

/-- R69: what follows the opening quote: ASCII characters and the closing quote. -/
def quotedCodes : List Char → Option (List (BitVec 7))
  | [] => none
  | c :: cs =>
    if c = '"' then (if cs = [] then some [] else none)
    else if c.toNat < 128 then (quotedCodes cs).map (BitVec.ofNat 7 c.toNat :: ·) else none

/-- R69: an operand: a quoted string (the empty one too), or a hex string. -/
def readOperand (cs : List Char) : Option AsmOperand :=
  match cs with
  | [] => none
  | c :: rest => if c = '"' then (quotedCodes rest).map .quoted else (hexBytes cs).map .bytes

/-- R64: the status that a name stands for. That `.expect` writes its `<status>` as the name and not as the code value is the
model's choice, since R70 does not say (log entry 16). -/
def readStatus (cs : List Char) : Option Status :=
  if cs = ['O', 'K'] then some .ok
  else if cs = ['E', 'R', 'R', '_', 'M', 'I', 'S', 'U', 'S', 'E'] then some .errMisuse
  else if cs = ['E', 'R', 'R', '_', 'C', 'A', 'P', 'A', 'C', 'I', 'T', 'Y'] then some .errCapacity
  else if cs = ['E', 'R', 'R', '_', 'I', 'L', 'L', 'E', 'G', 'A', 'L'] then some .errIllegal
  else none

/-- R70: the status and the optional hex string of `.expect`. -/
def readExpect (cs : List Char) : Option AsmLine :=
  match readStatus (cs.takeWhile (!isBlank ·)), hexBytes (cs.dropWhile (!isBlank ·)) with
  | some st, some d => some (.expect ⟨st, d⟩)
  | _, _ => none

/-- R69, R70: a line that is not empty once its comment and blanks are gone. -/
def readLine (cs : List Char) : Option AsmLine :=
  let word := cs.takeWhile (!isBlank ·)
  let rest := trimBlanks (cs.dropWhile (!isBlank ·))
  if word = ['U', 'P', 'D', 'A', 'T', 'E'] then (readOperand rest).map .update
  else if word = ['H', 'A', 'S', 'H'] then (readOperand rest).map .hash
  else if word = ['F', 'I', 'N', 'A', 'L', 'I', 'Z', 'E'] then (if rest = [] then some .finalize else none)
  else if word = ['.', 'r', 'e', 's', 'e', 't'] then (if rest = [] then some .reset else none)
  else if word = ['.', 'e', 'x', 'p', 'e', 'c', 't'] then readExpect rest
  else none

/-- R69: one command per line. The lines of a text, the comments and outer blanks gone, the empty ones left out. -/
def textLines (text : List Char) : List (List Char) :=
  ((text.splitOn '\n').map fun l => trimBlanks (beforeComment false l)).filter (!·.isEmpty)

/-- R69, R70: the program that a text stands for; `none` when some line is not of the notation. -/
def readProgram (text : List Char) : Option (List AsmLine) := (textLines text).mapM readLine

end Sys2Proof.Machine
end

