-- ==== Sys2Proof/Machine/Platform.lean ====
section
/-! DEFINITION. `N_INST` independent instances side by side (spec/60_exceptions.md R177, spec/20_memory.md R50): the product
of `n` copies of the single-instance machine. The constant tables are definitions, so they are shared by construction
(spec/10_state.md R29). -/

namespace Sys2Proof.Machine

/-- R177: `n` instances, `n` being the OPEN parameter `N_INST`, each with its own registers, port and reset, and the order
in which they take their steps (log entry 9). -/
structure Platform (n : Nat) where
  instances : Vector State n
  /-- Which instance steps next, oldest first. -/
  schedule : List (Fin n)
deriving DecidableEq, Repr

/-- R177: they all start the same way, by reset. -/
def Platform.reset (n : Nat) : Platform n := ⟨Vector.replicate n State.reset, []⟩

/-- Replace the state of instance `k`, the head of the schedule being used up. -/
def Platform.advance {n : Nat} (p : Platform n) (k : Fin n) (rest : List (Fin n)) (s : State) : Platform n :=
  ⟨p.instances.set k.val s, rest⟩

/-- R50: one instance takes one step, and no other instance is touched. -/
def Platform.step {n : Nat} (p : Platform n) : Host.Outcome (Platform n) Fault Refusal :=
  match p.schedule with
  | [] => .next p
  | k :: rest =>
    match Machine.step p.instances[k] with
    | .next s => .next (p.advance k rest s)
    | .fault r => .fault r
    | .refused r => .refused r

/-- The machine of `n` instances in the form of `Host.Core`, so that `Host.Core.run` runs it. -/
def Platform.core (n : Nat) : Host.Core where
  State := Platform n
  Fault := Fault
  Refusal := Refusal
  step := Platform.step
  reset := Platform.reset n

end Sys2Proof.Machine
end

