-- ==== Sys2Proof/Machine/Published.lean ====
section
/-! DEFINITION. The published orientation of the same compression function (spec/41_compression.md R110): row-major
placement, column shift, row mix on the right, round constant in the first row. The engine does not use it. -/

namespace Sys2Proof.Machine.Published

/-- R110: `a[i][j] = B[8i + j]`. -/
def mat (b : Block) : ByteMatrix := tabulate fun i j => b[8 * i.val + j.val]

/-- The inverse of the row-major placement. -/
def blk (a : ByteMatrix) : Block := Vector.ofFn fun k => a[k.val / 8][k.val % 8]

/-- R110: column `j` is shifted downward by `j` places, `b[i][j] = a[(i - j) mod 8][j]`. -/
def shiftColumns (a : ByteMatrix) : ByteMatrix := tabulate fun i j => a[i - j][j]

/-- R110: the circulant matrix whose first row is COEF, `C[k][j] = COEF[(j - k) mod 8]`. -/
def circulant (k j : Fin 8) : Byte := coef[(j - k).val]

/-- R110: `b = a · C`. -/
def mixRows (a : ByteMatrix) : ByteMatrix := tabulate fun i j => xorOver fun k => gmul a[i][k] (circulant k j)

/-- R110: the round constant's non-zero bytes are the first row. -/
def roundConstant (i : Nat) : ByteMatrix :=
  tabulate fun r c => if r = 0 then sbox (BitVec.ofNat 8 (8 * (i - 1) + c.val)) else 0x00

/-- The round in the published orientation. -/
def cipherRound (a k : ByteMatrix) : ByteMatrix := addKey (mixRows (shiftColumns (subLayer a))) k

/-- The round keys in the published orientation. -/
def roundKey (kin : ByteMatrix) : Nat → ByteMatrix
  | 0 => kin
  | i + 1 => cipherRound (roundKey kin i) (roundConstant (i + 1))

/-- The cipher state after `i` rounds in the published orientation. -/
def cipherState (kin p : ByteMatrix) : Nat → ByteMatrix
  | 0 => addKey p (roundKey kin 0)
  | i + 1 => cipherRound (cipherState kin p i) (roundKey kin (i + 1))

/-- The compression function in the published orientation, on matrices. -/
def compress (hin b : ByteMatrix) : ByteMatrix := addKey (addKey (cipherState hin b Config.rounds) b) hin

/-- The compression function in the published orientation, from blocks to blocks. -/
def compressBlocks (hin b : Block) : Block := blk (compress (mat hin) (mat b))

end Sys2Proof.Machine.Published
end

