-- ==== Sys2Proof/Machine/Digest.lean ====
section
/-! DEFINITION. The function computed, in closed form: the padded message (spec/42_hash_engine.md R140), the chaining value
after a number of blocks (R134, R142), and the digest (R142). `step` does not use these; claims are stated in them. -/

namespace Sys2Proof.Machine

/-- R142: block number `i` of a byte sequence, `s[64i .. 64i+63]`; it is used only for blocks that lie inside `s`. -/
def blockAt (s : List Byte) (i : Nat) : Block := Vector.ofFn fun j => s.getD (64 * i + j.val) 0

/-- R134, R142: the left fold of COMPRESS from `h` over the first `n` blocks of `s`. -/
def chain (h : ByteMatrix) (s : List Byte) : Nat → ByteMatrix
  | 0 => h
  | n + 1 => compress (chain h s n) (mat (blockAt s n))

/-- R140: the number of zero bytes, `z = (31 - n) mod 64`, the non-negative remainder (R6). -/
def padZeros (n : Nat) : Nat := ((31 - (n : Int)) % 64).toNat

/-- R139, R140: the padding suffix of a message of `n` bytes whose length field reads `l` bits. -/
def padSuffix (n : Nat) (l : BitVec 256) : List Byte :=
  [Config.padMark] ++ List.replicate (padZeros n) 0x00 ++ (be256 l).toList

/-- R140: `Pad(m) = m ‖ 0x80 ‖ 0x00^z ‖ BE256(8n)`. -/
def padded (m : List Byte) : List Byte := m ++ padSuffix m.length (BitVec.ofNat 256 (8 * m.length))

/-- R140: the number of blocks of `Pad(m)`. -/
def blockCount (n : Nat) : Nat := if n % 64 ≤ 31 then n / 64 + 1 else n / 64 + 2

/-- R142: `Digest(m) = Blk(fold(COMPRESS, 0, blocks(Pad(m))))`. -/
def digest (m : List Byte) : List Byte := (blk (chain zeroMatrix (padded m) ((padded m).length / 64))).toList

end Sys2Proof.Machine
end

