-- ==== Sys2Proof/Safety.lean ====
section
/-! DEFINITION. What counts as a sound state and as the result of a run, in the terms the statements use: the invariants of
spec/10_state.md R26, the zeroised registers of R22, the responses a host receives (spec/42_hash_engine.md R131), and the
end of a computation (spec/70_reset_and_hazards.md R199). -/

namespace Sys2Proof.Machine

/-- R138, R166: `H`, `BUF`, `BUFN` and `LEN` are all zero. -/
def Zeroised (s : State) : Prop :=
  s.H = zeroMatrix ∧ s.BUF = Vector.replicate 64 0 ∧ s.BUFN = 0 ∧ s.LEN = 0

/-- R134: starting from the chaining value `h` with an empty buffer, the byte sequence `m` has been absorbed: every complete
block is in `H`, and the rest of `m` is in `BUF[0..BUFN-1]`. -/
structure Absorbed (h : ByteMatrix) (m : List Byte) (s : State) : Prop where
  chaining : s.H = chain h m (m.length / 64)
  bufn : s.BUFN.val = m.length % 64
  tail : ∀ j : Fin 64, j.val < m.length % 64 → m[64 * (m.length / 64) + j.val]? = some s.BUF[j]

/-- R26 for the message `m` absorbed since reset: (b), (d), (e), (f) are `Absorbed` from the all-zero matrix, and (a), (c)
are that `LEN`, below `2^256`, is the bit length. -/
structure Holds (m : List Byte) (s : State) : Prop where
  absorbed : Absorbed zeroMatrix m s
  len : s.LEN.toNat = 8 * m.length

/-- R26 in ACCUM; in FINAL and FAILED the registers are zeroised (R22, R166). -/
def StateInv (s : State) : Prop :=
  match s.PHASE with
  | .accum => ∃ m, Holds m s
  | .final => Zeroised s
  | .failed => Zeroised s

/-- The five registers of R21 are the same. -/
structure SameRegisters (s t : State) : Prop where
  H : t.H = s.H
  BUF : t.BUF = s.BUF
  BUFN : t.BUFN = s.BUFN
  LEN : t.LEN = s.LEN
  PHASE : t.PHASE = s.PHASE

/-- R23: the states agree except perhaps in the stale bytes `BUF[BUFN..63]`. -/
structure SameButStale (s t : State) : Prop where
  H : t.H = s.H
  valid : ∀ j : Fin 64, j.val < s.BUFN.val → t.BUF[j] = s.BUF[j]
  BUFN : t.BUFN = s.BUFN
  LEN : t.LEN = s.LEN
  PHASE : t.PHASE = s.PHASE
  response : t.response = s.response
  inputs : t.inputs = s.inputs

/-- Whether the host's next event is a command. -/
def State.commandNext (s : State) : Bool :=
  match s.inputs with
  | .command _ :: _ => true
  | _ => false

/-- Whether the host's next event resets the instance. -/
def State.resetNext (s : State) : Bool :=
  match s.inputs with
  | .reset :: _ => true
  | .resetDuring _ :: _ => true
  | _ => false

/-- R65: the transaction is illegal, by one of (a) to (d). -/
def IllegalTransaction (t : Transaction) : Prop :=
  (headerOp t.header ≠ 0x01 ∧ headerOp t.header ≠ 0x02) ∨ headerZero t.header ≠ 0x00 ∨
  (headerOp t.header = 0x02 ∧ headerLen t.header ≠ 0) ∨ t.payload.length ≠ (headerLen t.header).toNat

/-- R131: the responses the host receives in the next `n` steps: one for each command, none for anything else. -/
def transcript : Nat → State → List Response
  | 0, _ => []
  | n + 1, s =>
    match step s with
    | .next s' => (if s.commandNext then s'.response.toList else []) ++ transcript n s'
    | .fault _ => []
    | .refused _ => []

/-- R199: the computation has ended. -/
def State.ended (s : State) : Bool := s.PHASE ≠ .accum

/-- R199: it has ended successfully. -/
def State.endedSuccessfully (s : State) : Bool := s.PHASE = .final

/-- Every event of the list is a command: none resets the instance. -/
def NoReset (es : List HostEvent) : Prop := ∀ e ∈ es, ∃ t, e = .command t

end Sys2Proof.Machine
end

