-- ==== Sys2Proof/Certificates/Slice0/Obligations.lean ====
section
/-! DEFINITION. The statements for the provers. Each docstring names the rules of spec/ that the statement formalises or
rests on. Nothing here rests on a value the model chose, but where a docstring says so. In every statement the clauses on
`inputs`, the host's events, are about the model's own field (log entry 1), and those on `response` are about the port as
log entry 2 has it. -/

open Sys2Proof Sys2Proof.Machine

/-! ### Encoding -/

/-- A few command words written out from R61, R62 and R67 (95_test_vectors.md V12) decode to what they stand for. -/
def Obligations.SpecWordsDecode : Prop :=
  decode ⟨0x01000003, [0x61, 0x62, 0x63]⟩ = .ok (.update [0x61, 0x62, 0x63]) ∧
  decode ⟨0x01000000, []⟩ = .ok (.update []) ∧
  decode ⟨0x02000000, []⟩ = .ok .finalize ∧
  decode ⟨0x03000000, []⟩ = .error .reservedOp ∧
  decode ⟨0x01800000, []⟩ = .error .nonzeroField ∧
  decode ⟨0x02000001, [0x00]⟩ = .error .finalizeLength ∧
  decode ⟨0x01000003, [0x61, 0x62]⟩ = .error .payloadLength ∧
  decodeWire [0x01, 0x00, 0x00, 0x01, 0x61] = .ok (.update [0x61])

/-- R62, R63: decoding the encoding of a well-formed command gives it back, as a transaction and on a byte-wide port. -/
def Obligations.DecodeInvertsEncode : Prop :=
  ∀ i : Instr, i.wellFormed = true → decode (encode i) = .ok i ∧ decodeWire (encodeWire i) = .ok i

/-- R62, R67: a transaction that decodes to a command is that command's one encoding, and the command is well-formed. -/
def Obligations.EncodeInvertsDecode : Prop :=
  ∀ (t : Transaction) (i : Instr), decode t = .ok i → encode i = t ∧ i.wellFormed = true

/-- R62: the rows of the opcode table select exactly the commands; no header selects both rows, and a header that selects
neither is illegal with any payload. -/
def Obligations.TableRowsSelectCommands : Prop :=
  ∀ (h : BitVec 32) (p : List Byte),
    (∀ d, decode ⟨h, p⟩ = .ok (.update d) ↔
      updateRow.selects h = true ∧ p.length = (headerLen h).toNat ∧ d = p) ∧
    (decode ⟨h, p⟩ = .ok .finalize ↔ finalizeRow.selects h = true ∧ p = []) ∧
    ¬ (updateRow.selects h = true ∧ finalizeRow.selects h = true) ∧
    (updateRow.selects h = false → finalizeRow.selects h = false → ∃ why, decode ⟨h, p⟩ = .error why)

/-- R61, R68: the byte-wide port carries `op`, `zero`, `len[15:8]`, `len[7:0]`, then the payload; the first command of a
byte stream is cut off by `len` alone, `4 + len` bytes, and what follows is left. -/
def Obligations.WireOrderAndLength : Prop :=
  ∀ (t : Transaction) (rest : List Byte),
    t.toWire = [headerOp t.header, headerZero t.header, (headerLen t.header).extractLsb' 8 8,
      (headerLen t.header).extractLsb' 0 8] ++ t.payload ∧
    (t.payload.length = (headerLen t.header).toNat →
      Transaction.takeFirst (t.toWire ++ rest) = some (t, rest) ∧
      t.toWire.length = 4 + (headerLen t.header).toNat)

/-- R65, R164: a transaction decodes to no command exactly when one of (a) to (d) holds; then, in every phase, it is
answered `ERR_ILLEGAL` with no data; in ACCUM the instance is zeroised and dead; in FINAL and FAILED no register changes. -/
def Obligations.IllegalTransactionKills : Prop :=
  ∀ (s : State) (t : Transaction) (rest : List HostEvent), s.inputs = .command t :: rest →
    ((∃ why, decode t = .error why) ↔ IllegalTransaction t) ∧
    (IllegalTransaction t → ∃ s', step s = .next s' ∧ s'.response = some ⟨.errIllegal, []⟩ ∧ s'.inputs = rest ∧
      (s.PHASE = .accum → Zeroised s' ∧ s'.PHASE = .failed) ∧ (s.PHASE ≠ .accum → SameRegisters s s'))

/-! ### Constant tables and field arithmetic -/

/-- R82: the 256-entry table and the mini-box network are the same function. -/
def Obligations.SboxTableEqualsNetwork : Prop := ∀ u : Byte, sbox u = sboxNetwork u

/-- R85: `a ⊗ b` is the product of the polynomials `a` and `b` over GF(2), reduced modulo `x^8 + x^4 + x^3 + x^2 + 1`. -/
def Obligations.FieldProductIsPolynomialProduct : Prop :=
  let poly : Byte → Polynomial (ZMod 2) := fun a => ∑ i : Fin 8, if a.getLsbD i.val then Polynomial.X ^ i.val else 0
  ∀ a b : Byte, poly (gmul a b) =
    (poly a * poly b) %ₘ (Polynomial.X ^ 8 + Polynomial.X ^ 4 + Polynomial.X ^ 3 + Polynomial.X ^ 2 + 1)

/-- R85: the field laws the rule names. -/
def Obligations.FieldProductLaws : Prop :=
  (∀ a b : Byte, gmul a b = gmul b a) ∧
  (∀ a b c : Byte, gmul (gmul a b) c = gmul a (gmul b c)) ∧
  (∀ a b c : Byte, gmul a (b ^^^ c) = gmul a b ^^^ gmul a c) ∧
  (∀ a b c : Byte, gmul (a ^^^ b) c = gmul a c ^^^ gmul b c) ∧
  (∀ a : Byte, gmul 0x01 a = a ∧ gmul a 0x01 = a ∧ gmul 0x00 a = 0x00)

/-- R89: `Blk(RC[i])` is `SBOX[8(i-1)], ..., SBOX[8(i-1)+7]` followed by 56 zero bytes, for the ten round numbers. -/
def Obligations.RoundConstantBlocks : Prop :=
  ∀ i : Nat, 1 ≤ i → i ≤ 10 → ∀ k : Fin 64,
    (blk (roundConstant i))[k] = if k.val < 8 then sbox (BitVec.ofNat 8 (8 * (i - 1) + k.val)) else 0x00

/-! ### Byte order -/

/-- R42: `Mat(B)[r][c] = B[8c + r]`, `Blk(M)[k] = M[k mod 8][k div 8]`, and each undoes the other. -/
def Obligations.BlockMatrixMapping : Prop :=
  (∀ (b : Block) (r c : Fin 8), (mat b)[r][c] = b[8 * c.val + r.val]) ∧
  (∀ (m : ByteMatrix) (k : Fin 64), (blk m)[k] = m[k.val % 8][k.val / 8]) ∧
  (∀ b : Block, blk (mat b) = b) ∧ (∀ m : ByteMatrix, mat (blk m) = m)

/-- R6: the 32 bytes of `BE256(n)` read as a big-endian number are `n`, and byte `j` is `(n >> (8*(31-j))) & 0xFF`. -/
def Obligations.LengthFieldIsBigEndian : Prop :=
  ∀ n : BitVec 256,
    (be256 n).toList.foldl (fun acc b => 256 * acc + b.toNat) 0 = n.toNat ∧
    ∀ j : Fin 32, ((be256 n)[j]).toNat = (n.toNat >>> (8 * (31 - j.val))) % 256

/-! ### The compression function -/

/-- R101: SHIFT on blocks; a matrix whose rows are each constant is unchanged; eight applications are the identity; it
commutes with SUB; it is linear over XOR. -/
def Obligations.ShiftLayerRotatesRows : Prop :=
  (∀ (m : ByteMatrix) (r c : Fin 8), (shiftLayer m)[r][c] = m[r][(c.val + 8 - r.val) % 8]'(by omega)) ∧
  (∀ (m : ByteMatrix) (r c : Fin 8),
    (blk (shiftLayer m))[8 * c.val + r.val] = (blk m)[8 * ((c.val + 8 - r.val) % 8) + r.val]'(by omega)) ∧
  (∀ f : Fin 8 → Byte, shiftLayer (tabulate fun r _ => f r) = tabulate fun r _ => f r) ∧
  (∀ m : ByteMatrix, shiftLayer^[8] m = m) ∧
  (∀ m : ByteMatrix, shiftLayer (subLayer m) = subLayer (shiftLayer m)) ∧
  (∀ a b : ByteMatrix, shiftLayer (addKey a b) = addKey (shiftLayer a) (shiftLayer b))

/-- R102: MIX is linear and takes zero to zero; a byte of the result depends on its own column only; a matrix with every
byte `v` maps to the one with every byte `0x03 ⊗ v`; MIX is invertible. -/
def Obligations.MixLayerLinearInvertible : Prop :=
  (∀ a b : ByteMatrix, mixLayer (addKey a b) = addKey (mixLayer a) (mixLayer b)) ∧
  mixLayer zeroMatrix = zeroMatrix ∧
  (∀ (a b : ByteMatrix) (c : Fin 8), (∀ r : Fin 8, a[r][c] = b[r][c]) → ∀ r : Fin 8, (mixLayer a)[r][c] = (mixLayer b)[r][c]) ∧
  (∀ v : Byte, mixLayer (tabulate fun _ _ => v) = tabulate fun _ _ => gmul 0x03 v) ∧
  Function.Bijective mixLayer

/-- R102: the eight equations of one column, written out as the rule has them. -/
def Obligations.MixColumnEquations : Prop :=
  ∀ (m : ByteMatrix) (c : Fin 8),
    (mixLayer m)[0][c] = gmul 0x01 m[0][c] ^^^ gmul 0x09 m[1][c] ^^^ gmul 0x02 m[2][c] ^^^ gmul 0x05 m[3][c] ^^^
      gmul 0x08 m[4][c] ^^^ gmul 0x01 m[5][c] ^^^ gmul 0x04 m[6][c] ^^^ gmul 0x01 m[7][c] ∧
    (mixLayer m)[1][c] = gmul 0x01 m[0][c] ^^^ gmul 0x01 m[1][c] ^^^ gmul 0x09 m[2][c] ^^^ gmul 0x02 m[3][c] ^^^
      gmul 0x05 m[4][c] ^^^ gmul 0x08 m[5][c] ^^^ gmul 0x01 m[6][c] ^^^ gmul 0x04 m[7][c] ∧
    (mixLayer m)[2][c] = gmul 0x04 m[0][c] ^^^ gmul 0x01 m[1][c] ^^^ gmul 0x01 m[2][c] ^^^ gmul 0x09 m[3][c] ^^^
      gmul 0x02 m[4][c] ^^^ gmul 0x05 m[5][c] ^^^ gmul 0x08 m[6][c] ^^^ gmul 0x01 m[7][c] ∧
    (mixLayer m)[3][c] = gmul 0x01 m[0][c] ^^^ gmul 0x04 m[1][c] ^^^ gmul 0x01 m[2][c] ^^^ gmul 0x01 m[3][c] ^^^
      gmul 0x09 m[4][c] ^^^ gmul 0x02 m[5][c] ^^^ gmul 0x05 m[6][c] ^^^ gmul 0x08 m[7][c] ∧
    (mixLayer m)[4][c] = gmul 0x08 m[0][c] ^^^ gmul 0x01 m[1][c] ^^^ gmul 0x04 m[2][c] ^^^ gmul 0x01 m[3][c] ^^^
      gmul 0x01 m[4][c] ^^^ gmul 0x09 m[5][c] ^^^ gmul 0x02 m[6][c] ^^^ gmul 0x05 m[7][c] ∧
    (mixLayer m)[5][c] = gmul 0x05 m[0][c] ^^^ gmul 0x08 m[1][c] ^^^ gmul 0x01 m[2][c] ^^^ gmul 0x04 m[3][c] ^^^
      gmul 0x01 m[4][c] ^^^ gmul 0x01 m[5][c] ^^^ gmul 0x09 m[6][c] ^^^ gmul 0x02 m[7][c] ∧
    (mixLayer m)[6][c] = gmul 0x02 m[0][c] ^^^ gmul 0x05 m[1][c] ^^^ gmul 0x08 m[2][c] ^^^ gmul 0x01 m[3][c] ^^^
      gmul 0x04 m[4][c] ^^^ gmul 0x01 m[5][c] ^^^ gmul 0x01 m[6][c] ^^^ gmul 0x09 m[7][c] ∧
    (mixLayer m)[7][c] = gmul 0x09 m[0][c] ^^^ gmul 0x02 m[1][c] ^^^ gmul 0x05 m[2][c] ^^^ gmul 0x08 m[3][c] ^^^
      gmul 0x01 m[4][c] ^^^ gmul 0x04 m[5][c] ^^^ gmul 0x01 m[6][c] ^^^ gmul 0x01 m[7][c]

/-- R106 to R108: the key schedule's recurrence from `K[0] = Kin`, the cipher as the ten rounds in order under those keys
after whitening with `K[0]`, and the feed-forward, with R108's corner cases. -/
def Obligations.CompressionStructure : Prop :=
  ∀ hin b : ByteMatrix,
    (keySchedule hin)[0] = hin ∧
    (∀ i : Nat, (h : i < 10) → (keySchedule hin)[i + 1]'(Nat.succ_lt_succ h) =
      cipherRound ((keySchedule hin)[i]'(Nat.lt_succ_of_lt h)) (roundConstant (i + 1))) ∧
    wCipher hin b = ((keySchedule hin).toList.tail).foldl cipherRound (addKey b hin) ∧
    (∀ r c : Fin 8, (compress hin b)[r][c] = (wCipher hin b)[r][c] ^^^ b[r][c] ^^^ hin[r][c]) ∧
    compress hin hin = wCipher hin hin ∧
    compress zeroMatrix b = addKey (wCipher zeroMatrix b) b

/-- R100, R104, R107: SUB is a bijection on matrices, for a fixed `A` ROUND is a bijection, and for a fixed key the W cipher
is a bijection on blocks. -/
def Obligations.CipherBijectiveForFixedKey : Prop :=
  Function.Bijective subLayer ∧ (∀ a : ByteMatrix, Function.Bijective fun m => cipherRound m a) ∧
  (∀ k : ByteMatrix, Function.Bijective (wCipher k))

/-- R110: the published description, row-major with a column shift and a row mix, is the same function on blocks. -/
def Obligations.PublishedOrientationAgrees : Prop :=
  ∀ hin b : Block, Published.compressBlocks hin b = blk (compress (mat hin) (mat b))

/-! ### The micro-operations of the sequencer -/

/-- R135, R136: ABSORB puts the byte at `BUF[BUFN]` and counts 8 bits; with room left it moves `BUFN` on; with the block
complete, FLUSH replaces `H` by COMPRESS of the old `H` and the full buffer, and `BUFN` is 0 again. Nothing else changes.
That the other bytes of `BUF` stay as they are through the FLUSH is the model's choice among those R23 and D24 allow (log
entry 13); the host's events are log entry 1. -/
def Obligations.AbsorbStoresCountsFlushes : Prop :=
  ∀ (b : Byte) (s : State), s.LEN.toNat + 8 < 2 ^ 256 →
    (absorb b s).LEN.toNat = s.LEN.toNat + 8 ∧
    (∀ j : Fin 64, (absorb b s).BUF[j] = if j.val = s.BUFN.val then b else s.BUF[j]) ∧
    (s.BUFN.val < 63 → (absorb b s).BUFN.val = s.BUFN.val + 1 ∧ (absorb b s).H = s.H) ∧
    (s.BUFN.val = 63 → (absorb b s).BUFN.val = 0 ∧
      (absorb b s).H = compress s.H (mat (s.BUF.set 63 b))) ∧
    (absorb b s).PHASE = s.PHASE ∧ (absorb b s).response = s.response ∧ (absorb b s).inputs = s.inputs

/-- R53, R139: the block or blocks that PAD flushes, by the fill `k` at entry. With `k <= 31` one block: the message tail,
the marker, zeros to byte 31, the length field. With `k >= 32` two: the tail, the marker and zeros; then 32 zeros and the
length field. `LEN` and `PHASE` are unchanged and `BUFN` is 0. -/
def Obligations.PadFlushesTheLaidOutBlocks : Prop :=
  ∀ (l : BitVec 256) (s : State), ∃ first last : Block,
    (s.BUFN.val ≤ 31 → (pad l s).H = compress s.H (mat last) ∧
      ∀ j : Fin 32, last[j.val]'(by omega) =
        if j.val < s.BUFN.val then s.BUF[j.val]'(by omega) else if j.val = s.BUFN.val then 0x80 else 0x00) ∧
    (32 ≤ s.BUFN.val → (pad l s).H = compress (compress s.H (mat first)) (mat last) ∧
      (∀ j : Fin 64, first[j] = if j.val < s.BUFN.val then s.BUF[j] else if j.val = s.BUFN.val then 0x80 else 0x00) ∧
      (∀ j : Fin 32, last[j.val]'(by omega) = 0x00)) ∧
    (∀ j : Fin 32, last[32 + j.val]'(by omega) = (be256 l)[j]) ∧
    (pad l s).BUFN = 0 ∧ (pad l s).LEN = s.LEN ∧ (pad l s).PHASE = s.PHASE ∧
    (pad l s).response = s.response ∧ (pad l s).inputs = s.inputs

/-- R140: the padded message is whole blocks, `N(n)` of them, with at most 63 zero bytes of fill. -/
def Obligations.PaddedMessageIsWholeBlocks : Prop :=
  ∀ m : List Byte, (padded m).length = 64 * blockCount m.length ∧ padZeros m.length ≤ 63

/-! ### The commands -/

/-- R132: UPDATE in every phase. Not in ACCUM: `ERR_MISUSE`, nothing else changes. In ACCUM with too many bits:
`ERR_CAPACITY`, zeroised, FAILED. Otherwise OK with no data: the bytes are absorbed one by one, `LEN` grows by `8n`, `BUFN`
is `(BUFN + n) mod 64`, `PHASE` stays ACCUM; an empty payload changes no register. -/
def Obligations.UpdateOutcomeInEveryPhase : Prop :=
  ∀ (d : List Byte) (s : State),
    (s.PHASE ≠ .accum → ∃ t, exec (.update d) s = .next t ∧ t.response = some ⟨.errMisuse, []⟩ ∧ SameRegisters s t ∧
      t.inputs = s.inputs) ∧
    (s.PHASE = .accum → 2 ^ 256 ≤ s.LEN.toNat + 8 * d.length → ∃ t, exec (.update d) s = .next t ∧
      t.response = some ⟨.errCapacity, []⟩ ∧ Zeroised t ∧ t.PHASE = .failed ∧ t.inputs = s.inputs) ∧
    (s.PHASE = .accum → s.LEN.toNat + 8 * d.length < 2 ^ 256 → ∃ t, exec (.update d) s = .next t ∧
      t = { d.foldl (fun u b => absorb b u) s with response := some ⟨.ok, []⟩ } ∧
      t.response = some ⟨.ok, []⟩ ∧ t.LEN.toNat = s.LEN.toNat + 8 * d.length ∧
      t.BUFN.val = (s.BUFN.val + d.length) % 64 ∧ t.PHASE = .accum ∧ t.inputs = s.inputs ∧
      ((s.BUFN.val + d.length) / 64 = 0 → t.H = s.H) ∧ (d = [] → SameRegisters s t))

/-- R134: UPDATE in ACCUM completes, in closed form: with `m = BUF[0..BUFN-1] ‖ d`, `H` is folded over the complete blocks of
`m` and the rest of `m` is in `BUF`. -/
def Obligations.UpdateCompletesInClosedForm : Prop :=
  ∀ (d : List Byte) (s : State), s.PHASE = .accum → s.LEN.toNat + 8 * d.length < 2 ^ 256 →
    ∃ t, exec (.update d) s = .next t ∧ t.response = some ⟨.ok, []⟩ ∧ t.PHASE = .accum ∧
      Absorbed s.H (s.BUF.toList.take s.BUFN.val ++ d) t ∧ t.LEN.toNat = s.LEN.toNat + 8 * d.length ∧
      t.inputs = s.inputs

/-- R132, R135: the frame of an UPDATE answered OK. `PHASE` and the host's events are unchanged; `H` is unchanged when no
block completes; every byte of `BUF` at which no payload byte lands, the `j`-th landing at `(BUFN + j) mod 64`, is unchanged. That bytes of `BUF` stay as
they are through a FLUSH is the model's choice among those R23 and D24 allow (log entry 13), and that the host's later
events are kept is about the model's own field (log entry 1). -/
def Obligations.UpdateFrame : Prop :=
  ∀ (d : List Byte) (s t : State), exec (.update d) s = .next t → t.response = some ⟨.ok, []⟩ → s.PHASE = .accum →
    t.PHASE = s.PHASE ∧ t.inputs = s.inputs ∧ (s.BUFN.val + d.length < 64 → t.H = s.H) ∧
    ∀ i : Fin 64, (∀ j < d.length, (s.BUFN.val + j) % 64 ≠ i.val) → t.BUF[i] = s.BUF[i]

/-- R138, R141: FINALIZE in every phase. Not in ACCUM: `ERR_MISUSE`, nothing else changes. In ACCUM: OK with the 64 bytes
`digest[k] = H[k mod 8][k div 8]` of the chaining value after padding with the length before padding; afterwards the
registers are zeroised and `PHASE` is FINAL. -/
def Obligations.FinalizeOutcomeInEveryPhase : Prop :=
  ∀ s : State,
    (s.PHASE ≠ .accum → ∃ t, exec .finalize s = .next t ∧ t.response = some ⟨.errMisuse, []⟩ ∧ SameRegisters s t ∧
      t.inputs = s.inputs) ∧
    (s.PHASE = .accum → ∃ t data, exec .finalize s = .next t ∧ t.response = some ⟨.ok, data⟩ ∧ data.length = 64 ∧
      (∀ k : Fin 64, data[k.val]? = some ((pad s.LEN s).H[k.val % 8][k.val / 8])) ∧
      Zeroised t ∧ t.PHASE = .final ∧ t.inputs = s.inputs)

/-- R138 to R142: FINALIZE in ACCUM completes, in closed form: the digest is `Blk` of `H` folded over the one or two blocks of
`BUF[0..BUFN-1]` followed by the padding suffix for the length `LEN`. -/
def Obligations.FinalizeCompletesInClosedForm : Prop :=
  ∀ s : State, s.PHASE = .accum → ∃ t, exec .finalize s = .next t ∧
    t.response = some ⟨.ok, (blk (chain s.H (s.BUF.toList.take s.BUFN.val ++ padSuffix s.BUFN.val s.LEN)
      (if s.BUFN.val ≤ 31 then 1 else 2))).toList⟩ ∧
    Zeroised t ∧ t.PHASE = .final ∧ t.inputs = s.inputs

/-! ### Errors -/

/-- R162: Misuse. Either command outside ACCUM is answered `ERR_MISUSE` and changes no register; in ACCUM it never is. -/
def Obligations.MisuseOutsideAccumOnly : Prop :=
  ∀ (i : Instr) (s : State),
    (s.PHASE ≠ .accum → exec i s = .next { s with response := some ⟨.errMisuse, []⟩ }) ∧
    (s.PHASE = .accum → ∃ t r, exec i s = .next t ∧ t.response = some r ∧ r.status ≠ .errMisuse)

/-- R133, R163: Capacity. UPDATE answers `ERR_CAPACITY` exactly in ACCUM when `LEN + 8n >= 2^256`; it then absorbs nothing and
leaves a zeroised, FAILED instance. FINALIZE never does. -/
def Obligations.CapacityRefusesTheWholePayload : Prop :=
  (∀ (d : List Byte) (s : State), ∃ t r, exec (.update d) s = .next t ∧ t.response = some r ∧
    (r.status = .errCapacity ↔ s.PHASE = .accum ∧ 2 ^ 256 ≤ s.LEN.toNat + 8 * d.length) ∧
    (r.status = .errCapacity → r.data = [] ∧ Zeroised t ∧ t.PHASE = .failed ∧ t.inputs = s.inputs)) ∧
  (∀ s : State, ∃ t r, exec .finalize s = .next t ∧ t.response = some r ∧ r.status ≠ .errCapacity)

/-- R165, R160: Illegal, then Misuse, then Capacity: the status of the one response to a command, in every case. -/
def Obligations.ErrorPriority : Prop :=
  ∀ (s : State) (tr : Transaction) (rest : List HostEvent), s.inputs = .command tr :: rest →
    ∃ t r, step s = .next t ∧ t.response = some r ∧
      (r.status = .errIllegal ↔ ∃ why, decode tr = .error why) ∧
      (r.status = .errMisuse ↔ (∃ i, decode tr = .ok i) ∧ s.PHASE ≠ .accum) ∧
      (r.status = .errCapacity ↔
        s.PHASE = .accum ∧ ∃ d, decode tr = .ok (.update d) ∧ 2 ^ 256 ≤ s.LEN.toNat + 8 * d.length) ∧
      (r.status = .ok ↔ s.PHASE = .accum ∧ (decode tr = .ok .finalize ∨
        ∃ d, decode tr = .ok (.update d) ∧ s.LEN.toNat + 8 * d.length < 2 ^ 256))

/-- R166, R167: error entry. `raise` answers the error's code with no data; from ACCUM it leaves a zeroised, FAILED instance;
from FINAL and FAILED it changes no register. Every command that is not answered OK has done just that to the state it found. -/
def Obligations.ErrorEntryZeroisesOrChangesNothing : Prop :=
  (∀ (e : EngineError) (s : State),
    (raiseError e s).response = some ⟨e.status, []⟩ ∧ (raiseError e s).inputs = s.inputs ∧
    (s.PHASE = .accum → Zeroised (raiseError e s) ∧ (raiseError e s).PHASE = .failed) ∧
    (s.PHASE ≠ .accum → SameRegisters s (raiseError e s))) ∧
  (∀ (s t : State) (tr : Transaction) (rest : List HostEvent) (r : Response), s.inputs = .command tr :: rest →
    step s = .next t → t.response = some r → r.status ≠ .ok →
    ∃ e : EngineError, r = ⟨e.status, []⟩ ∧ t = raiseError e { s with inputs := rest })

/-! ### Steps, reset and whole-machine rules -/

/-- R130: a step on a transaction that decodes to a command runs that command, on the state with the event taken off. -/
def Obligations.StepRunsTheDecodedCommand : Prop :=
  ∀ (s : State) (tr : Transaction) (rest : List HostEvent) (i : Instr), s.inputs = .command tr :: rest →
    decode tr = .ok i → step s = exec i { s with inputs := rest }

/-- R60, R131: every command gets exactly one response; it carries 64 data bytes when the command is a FINALIZE that
succeeded, and none otherwise. -/
def Obligations.OneResponsePerCommand : Prop :=
  ∀ (s : State) (tr : Transaction) (rest : List HostEvent), s.inputs = .command tr :: rest →
    ∃ t r, step s = .next t ∧ t.inputs = rest ∧ t.response = some r ∧
      (decode tr = .ok .finalize ∧ r.status = .ok → r.data.length = 64) ∧
      (¬ (decode tr = .ok .finalize ∧ r.status = .ok) → r.data = [])

/-- R64, R68: the status codes, and the response to a command on a byte-wide port: the code, then the data; 65 bytes when the
command is a FINALIZE that succeeded, and 1 byte otherwise. -/
def Obligations.ResponseWireFormat : Prop :=
  Status.ok.code = 0x00 ∧ Status.errMisuse.code = 0x01 ∧ Status.errCapacity.code = 0x02 ∧ Status.errIllegal.code = 0x03 ∧
  ∀ (s : State) (tr : Transaction) (rest : List HostEvent), s.inputs = .command tr :: rest →
    ∃ t r, step s = .next t ∧ t.response = some r ∧ r.toWire.head? = some r.status.code ∧ r.toWire.tail = r.data ∧
      (decode tr = .ok .finalize ∧ r.status = .ok → r.toWire.length = 65) ∧
      (¬ (decode tr = .ok .finalize ∧ r.status = .ok) → r.toWire.length = 1)

/-- R20, R160: no step stops, and an instance to which the host does nothing changes no state (the model's reading of an
idle instance as a step that changes nothing is log entry 3). -/
def Obligations.IdleInstanceHoldsAndNoStepStops : Prop :=
  (∀ s : State, ∃ t, step s = .next t) ∧ (∀ s : State, s.inputs = [] → step s = .next s)

/-- R32: the state after reset. -/
def Obligations.ResetStateValues : Prop :=
  (∀ r c : Fin 8, State.reset.H[r][c] = 0x00) ∧ State.reset.PHASE = .accum ∧ State.reset.LEN = 0 ∧
  State.reset.BUFN = 0 ∧ (∀ j : Fin 64, State.reset.BUF[j] = 0x00) ∧ State.reset.response = none

/-- R191: the reset event takes an instance from any phase to the reset values, with no response, and two resets in a row
equal one. -/
def Obligations.ResetEventFromAnyPhase : Prop :=
  ∀ (s : State) (rest : List HostEvent), s.inputs = .reset :: rest →
    ∃ t, step s = .next t ∧ Zeroised t ∧ t.PHASE = .accum ∧ t.response = none ∧ t.inputs = rest ∧
      ∀ more, rest = .reset :: more → step t = .next { t with inputs := more }

/-- R192: reset during a command is the same as reset with the command never issued. -/
def Obligations.ResetDuringCommandDropsIt : Prop :=
  ∀ (s : State) (tr : Transaction) (rest : List HostEvent), s.inputs = .resetDuring tr :: rest →
    step s = step { s with inputs := .reset :: rest }

/-- R27: the codes of `PHASE`, and its transitions: to FINAL only by a FINALIZE in ACCUM, to FAILED only by an error in ACCUM
(an illegal transaction, or an UPDATE over capacity), and FINAL and FAILED are left only by reset. -/
def Obligations.PhaseTransitions : Prop :=
  Phase.accum.code = 0 ∧ Phase.final.code = 1 ∧ Phase.failed.code = 2 ∧ State.reset.PHASE = .accum ∧
  ∀ s t : State, step s = .next t →
    (t.PHASE = .final ↔ (s.PHASE = .final ∧ s.resetNext = false) ∨
      (s.PHASE = .accum ∧ ∃ tr rest, s.inputs = .command tr :: rest ∧ decode tr = .ok .finalize)) ∧
    (t.PHASE = .failed ↔ (s.PHASE = .failed ∧ s.resetNext = false) ∨
      (s.PHASE = .accum ∧ ∃ tr rest, s.inputs = .command tr :: rest ∧
        ((∃ why, decode tr = .error why) ∨
          ∃ d, decode tr = .ok (.update d) ∧ 2 ^ 256 ≤ s.LEN.toNat + 8 * d.length)))

/-- R199: an open computation ends in a step exactly when that step answers a command with 64 data bytes (a FINALIZE answered
OK: it has ended successfully) or with an error (it has ended in failure). -/
def Obligations.ComputationEndsWithItsResponse : Prop :=
  ∀ s t : State, s.ended = false → step s = .next t →
    (t.endedSuccessfully = true ↔ ∃ tr rest r, s.inputs = .command tr :: rest ∧ decode tr = .ok .finalize ∧
      t.response = some r ∧ r.status = .ok ∧ r.data.length = 64) ∧
    (t.ended = true ∧ t.endedSuccessfully = false ↔
      ∃ tr rest r, s.inputs = .command tr :: rest ∧ t.response = some r ∧ r.status ≠ .ok)

/-- R26, R22: the invariant holds at reset, with the empty message. -/
def Obligations.InvariantAtReset : Prop := StateInv State.reset ∧ Holds [] State.reset

/-- R26, R22, R166: every step keeps the invariant: in ACCUM the registers are those of some message absorbed so far, and in
FINAL and FAILED they are zero. -/
def Obligations.InvariantKeptByEveryStep : Prop := ∀ s t : State, StateInv s → step s = .next t → StateInv t

/-- R137: one UPDATE of two chunks leaves the very state that two UPDATEs leave, when the first is accepted. -/
def Obligations.StreamingEquivalence : Prop :=
  ∀ (c d : List Byte) (s t : State), s.PHASE = .accum → s.LEN.toNat + 8 * c.length < 2 ^ 256 →
    exec (.update c) s = .next t → exec (.update d) t = exec (.update (c ++ d)) s

/-- R142: from reset in any state, for every way of cutting a message of at most `2^253 - 1` bytes into payloads of at most
65535, every UPDATE is answered OK with no data and FINALIZE is answered OK with `Digest` of the message. -/
def Obligations.DigestOfEverySplitting : Prop :=
  ∀ (s : State) (cs : List (List Byte)), (∀ c ∈ cs, c.length ≤ 65535) → cs.flatten.length < 2 ^ 253 →
    s.inputs = .reset :: (cs.map fun c => issue (.update c)) ++ [issue .finalize] →
    transcript (cs.length + 2) s = List.replicate cs.length ⟨.ok, []⟩ ++ [⟨.ok, digest cs.flatten⟩]

/-- R196, R168: once an instance has ended, no response to any later command carries data, in a run without a reset. -/
def Obligations.EndedRunAnswersNoData : Prop :=
  ∀ (n : Nat) (s : State), s.PHASE ≠ .accum → NoReset s.inputs →
    ∀ r ∈ transcript n s, r.data = [] ∧ (r.status = .errMisuse ∨ r.status = .errIllegal)

/-- R23: the stale bytes of `BUF` are never observable: two states that differ in nothing else answer every run alike. -/
def Obligations.StaleBytesUnobservable : Prop :=
  ∀ (n : Nat) (s t : State), SameButStale s t → transcript n s = transcript n t

/-- R28: what the host learns of the registers. The response to any transaction that is not a FINALIZE depends, of the
registers, on `PHASE` and `LEN` alone. -/
def Obligations.ResponseButToFinalizeDependsOnPhaseAndLength : Prop :=
  ∀ (s t : State) (tr : Transaction) (rest : List HostEvent), s.inputs = .command tr :: rest → t.inputs = s.inputs →
    s.PHASE = t.PHASE → s.LEN = t.LEN → decode tr ≠ .ok .finalize →
    ∃ s' t', step s = .next s' ∧ step t = .next t' ∧ s'.response = t'.response

/-! ### Instances and programs -/

/-- R50, R177: in any interleaving of `N` instances, each instance's state is what it would be if it had run alone. The
interleaving is the platform's own list `schedule` (log entry 9), and it is any list. -/
def Obligations.InstancesRunAsIfAlone : Prop :=
  ∀ (N n : Nat) (p : Platform N), ∃ p' : Platform N, (Platform.core N).run n p = .next p' ∧
    p'.schedule = p.schedule.drop n ∧
    ∀ k : Fin N, Sys2Proof.core.run ((p.schedule.take n).count k) p.instances[k] = .next p'.instances[k]

/-- R70: a long UPDATE is `ceil(n / 65535)` commands, each but the last of 65535 bytes, in order, and one when it fits. -/
def Obligations.LongUpdateSplits : Prop :=
  ∀ d : List Byte,
    (updatePayloads d).flatten = d ∧
    (updatePayloads d).length = max 1 ((d.length + 65534) / 65535) ∧
    (∀ c ∈ (updatePayloads d).dropLast, c.length = 65535) ∧ (∀ c ∈ updatePayloads d, c.length ≤ 65535)

/-- R70, R142: the program `.reset`, `HASH m` is answered OK throughout, and the last response carries `Digest(m)`. -/
def Obligations.HashProgramAnswersTheDigest : Prop :=
  ∀ (s : State) (a : AsmOperand), a.value.length < 2 ^ 253 → s.inputs = assemble [.reset, .hash a] →
    transcript s.inputs.length s =
      List.replicate (updatePayloads a.value).length ⟨.ok, []⟩ ++ [⟨.ok, digest a.value⟩]

/-! ### The step lemmas behind two of the run-level statements -/

/-- R196, R168, R166: a step of an instance that has ended changes no register unless it is a reset, so the instance stays
ended; and if the step answers a command, the answer is `ERR_MISUSE` or `ERR_ILLEGAL` and has no data. -/
def Obligations.EndedInstanceStaysEndedUntilReset : Prop :=
  ∀ s t : State, s.ended = true → s.resetNext = false → step s = .next t →
    SameRegisters s t ∧ t.ended = true ∧
    (s.commandNext = true → ∃ r, t.response = some r ∧ r.data = [] ∧ (r.status = .errMisuse ∨ r.status = .errIllegal))

/-- R23: a step keeps two states alike in everything but the stale bytes of `BUF`, and so it answers alike in both. -/
def Obligations.StepKeepsStatesAlikeButForStaleBytes : Prop :=
  ∀ s t s' : State, SameButStale s t → step s = .next s' →
    ∃ t', step t = .next t' ∧ SameButStale s' t' ∧ s'.response = t'.response
end

