-- ==== Sys2Proof/Laws/Decode.lean ====
section
/-! SUPPORT. The spec lemmas of the command format: the header is its three fields, what `decode` answers, and the byte-wide
port read back. -/

namespace Sys2Proof

theorem wellFormed_update (d : List Byte) : (Instr.update d).wellFormed = true ↔ d.length ≤ 65535 := decide_eq_true_iff

theorem wellFormed_finalize : Instr.finalize.wellFormed = true := rfl

/-- A header is its three fields. -/
theorem header_fields (h : BitVec 32) : headerOp h ++ headerZero h ++ headerLen h = h := by
  apply BitVec.eq_of_getLsbD_eq
  intro i hi
  simp only [headerOp, headerZero, headerLen, BitVec.getLsbD_append, BitVec.getLsbD_extractLsb']
  interval_cases i <;> simp

theorem headerOp_append (op z : BitVec 8) (l : BitVec 16) : headerOp (op ++ z ++ l) = op := by
  apply BitVec.eq_of_getLsbD_eq
  intro i hi
  simp only [headerOp, BitVec.getLsbD_append, BitVec.getLsbD_extractLsb']
  interval_cases i <;> simp

theorem headerZero_append (op z : BitVec 8) (l : BitVec 16) : headerZero (op ++ z ++ l) = z := by
  apply BitVec.eq_of_getLsbD_eq
  intro i hi
  simp only [headerZero, BitVec.getLsbD_append, BitVec.getLsbD_extractLsb']
  interval_cases i <;> simp

theorem headerLen_append (op z : BitVec 8) (l : BitVec 16) : headerLen (op ++ z ++ l) = l := by
  apply BitVec.eq_of_getLsbD_eq
  intro i hi
  simp only [headerLen, BitVec.getLsbD_append, BitVec.getLsbD_extractLsb']
  interval_cases i <;> simp

/-- Everything `decode` accepts, and as what. -/
theorem decode_ok_iff (t : Transaction) (i : Instr) : decode t = .ok i ↔
    headerZero t.header = 0 ∧ t.payload.length = (headerLen t.header).toNat ∧
      ((headerOp t.header = 1 ∧ i = .update t.payload) ∨
        (headerOp t.header = 2 ∧ headerLen t.header = 0 ∧ i = .finalize)) := by
  unfold decode
  split
  · simp_all
  split
  · simp_all
  split
  · simp_all
    exact eq_comm
  split
  · split <;> simp_all
    exact eq_comm
  · simp_all

/-- The first four bytes of a transaction on the byte-wide port are its header. -/
theorem wireHeader (h : BitVec 32) :
    h.extractLsb' 24 8 ++ h.extractLsb' 16 8 ++ h.extractLsb' 8 8 ++ h.extractLsb' 0 8 = h := by
  apply BitVec.eq_of_getLsbD_eq
  intro i hi
  simp only [BitVec.getLsbD_append, BitVec.getLsbD_extractLsb']
  interval_cases i <;> simp

/-- Reading a transaction's bytes back, with more bytes after them. -/
theorem ofWire_toWire_append (t : Transaction) (rest : List Byte) :
    Transaction.ofWire (t.toWire ++ rest) = some ⟨t.header, t.payload ++ rest⟩ := by
  unfold Transaction.toWire Transaction.ofWire
  simp only [List.cons_append, List.nil_append]
  exact congrArg (fun h => some (⟨h, t.payload ++ rest⟩ : Transaction)) (wireHeader t.header)

theorem ofWire_toWire (t : Transaction) : Transaction.ofWire t.toWire = some t := by
  simpa using ofWire_toWire_append t []

end Sys2Proof
end

