-- ==== Sys2Proof/Laws/Digest.lean ====
section
/-! SUPPORT. Blocks and chaining values of byte sequences: what appending bytes does to them. -/

namespace Sys2Proof.Machine

theorem blockAt_get (s : List Byte) (i j : Nat) (hj : j < 64) : (blockAt s i)[j] = s.getD (64 * i + j) 0 := by
  simp [blockAt]

/-- A block that lies inside `m` does not change when bytes are appended. -/
theorem blockAt_append {m x : List Byte} {i : Nat} (h : 64 * (i + 1) ≤ m.length) : blockAt (m ++ x) i = blockAt m i := by
  apply Vector.ext
  intro j hj
  rw [blockAt_get _ _ _ hj, blockAt_get _ _ _ hj, List.getD_eq_getElem?_getD, List.getD_eq_getElem?_getD,
    List.getElem?_append_left (by omega)]

/-- A block that lies in the appended part, when the first part is whole blocks. -/
theorem blockAt_append_right {m x : List Byte} {q i : Nat} (h : m.length = 64 * q) : blockAt (m ++ x) (q + i) = blockAt x i := by
  apply Vector.ext
  intro j hj
  rw [blockAt_get _ _ _ hj, blockAt_get _ _ _ hj, List.getD_eq_getElem?_getD, List.getD_eq_getElem?_getD,
    List.getElem?_append_right (by omega)]
  congr 2
  omega

/-- The chaining value after blocks that lie inside `m` does not depend on what follows `m`. -/
theorem chain_append {h : ByteMatrix} {m x : List Byte} {n : Nat} (hn : 64 * n ≤ m.length) :
    chain h (m ++ x) n = chain h m n := by
  induction n with
  | zero => rfl
  | succ n ih => rw [chain, chain, ih (by omega), blockAt_append (by omega)]

/-- Chaining through whole blocks `m` and on through `x` starts again from the value after `m`. -/
theorem chain_append_right {h : ByteMatrix} {m x : List Byte} {q : Nat} (hm : m.length = 64 * q) (n : Nat) :
    chain h (m ++ x) (q + n) = chain (chain h m q) x n := by
  induction n with
  | zero => exact chain_append (by omega)
  | succ n ih => rw [← Nat.add_assoc, chain, ih, blockAt_append_right hm, chain]

theorem padZeros_eq (n : Nat) : padZeros n = (95 - n % 64) % 64 := by
  unfold padZeros
  omega

theorem padSuffix_length (n : Nat) (l : BitVec 256) : (padSuffix n l).length = 33 + (95 - n % 64) % 64 := by
  simp [padSuffix, padZeros_eq]
  omega

end Sys2Proof.Machine
end

