-- ==== Sys2Proof/Laws/Layout.lean ====
section
/-! SUPPORT. What the layout operations read back as: `tabulate`, `mat`, `blk`, `memWrite`. -/

namespace Sys2Proof.Machine

theorem tabulate_get (f : Fin 8 → Fin 8 → Byte) (r c : Fin 8) : (tabulate f)[r][c] = f r c := by
  simp [tabulate]

theorem tabulate_get_nat (f : Fin 8 → Fin 8 → Byte) {r c : Nat} (hr : r < 8) (hc : c < 8) :
    ((tabulate f)[r]'hr)[c]'hc = f ⟨r, hr⟩ ⟨c, hc⟩ := by
  simp [tabulate]

/-- Two matrices are equal when their 64 cells are. -/
theorem matrix_ext {m n : ByteMatrix} (h : ∀ r c : Fin 8, m[r][c] = n[r][c]) : m = n := by
  apply Vector.ext
  intro r hr
  apply Vector.ext
  intro c hc
  exact h ⟨r, hr⟩ ⟨c, hc⟩

theorem zeroMatrix_get (r c : Fin 8) : zeroMatrix[r][c] = 0 := by simp [zeroMatrix]

/-- One cell after writing `v` at `a`: the byte of `v` that falls on it, or what was there. -/
theorem memWrite_get (b : Block) (a : Nat) (v : List Byte) (i : Nat) (hi : i < 64) :
    (memWrite b a v)[i] = if h : a ≤ i ∧ i - a < v.length then v[i - a]'h.2 else b[i] := by
  simp [memWrite]

end Sys2Proof.Machine
end

