-- ==== Sys2Proof/Laws/State.lean ====
section
/-! SUPPORT. One lemma per field per update of the state, so that no later proof unfolds a record update. -/

namespace Sys2Proof.Machine

/-! ### respond -/

@[simp] theorem respond_H (st : Status) (data : List Byte) (s : State) : (respond st data s).H = s.H := rfl
@[simp] theorem respond_BUF (st : Status) (data : List Byte) (s : State) : (respond st data s).BUF = s.BUF := rfl
@[simp] theorem respond_BUFN (st : Status) (data : List Byte) (s : State) : (respond st data s).BUFN = s.BUFN := rfl
@[simp] theorem respond_LEN (st : Status) (data : List Byte) (s : State) : (respond st data s).LEN = s.LEN := rfl
@[simp] theorem respond_PHASE (st : Status) (data : List Byte) (s : State) : (respond st data s).PHASE = s.PHASE := rfl
@[simp] theorem respond_response (st : Status) (data : List Byte) (s : State) : (respond st data s).response = some ⟨st, data⟩ := rfl
@[simp] theorem respond_inputs (st : Status) (data : List Byte) (s : State) : (respond st data s).inputs = s.inputs := rfl

/-! ### zeroise -/

@[simp] theorem zeroise_H (s : State) : (zeroise s).H = zeroMatrix := rfl
@[simp] theorem zeroise_BUF (s : State) : (zeroise s).BUF = Vector.replicate 64 0 := rfl
@[simp] theorem zeroise_BUFN (s : State) : (zeroise s).BUFN = 0 := rfl
@[simp] theorem zeroise_LEN (s : State) : (zeroise s).LEN = 0 := rfl
@[simp] theorem zeroise_PHASE (s : State) : (zeroise s).PHASE = s.PHASE := rfl
@[simp] theorem zeroise_response (s : State) : (zeroise s).response = s.response := rfl
@[simp] theorem zeroise_inputs (s : State) : (zeroise s).inputs = s.inputs := rfl

/-! ### setPhase -/

@[simp] theorem setPhase_H (p : Phase) (s : State) : (setPhase p s).H = s.H := rfl
@[simp] theorem setPhase_BUF (p : Phase) (s : State) : (setPhase p s).BUF = s.BUF := rfl
@[simp] theorem setPhase_BUFN (p : Phase) (s : State) : (setPhase p s).BUFN = s.BUFN := rfl
@[simp] theorem setPhase_LEN (p : Phase) (s : State) : (setPhase p s).LEN = s.LEN := rfl
@[simp] theorem setPhase_PHASE (p : Phase) (s : State) : (setPhase p s).PHASE = p := rfl
@[simp] theorem setPhase_response (p : Phase) (s : State) : (setPhase p s).response = s.response := rfl
@[simp] theorem setPhase_inputs (p : Phase) (s : State) : (setPhase p s).inputs = s.inputs := rfl

/-! ### withInputs -/

@[simp] theorem withInputs_H (rest : List HostEvent) (s : State) : (withInputs rest s).H = s.H := rfl
@[simp] theorem withInputs_BUF (rest : List HostEvent) (s : State) : (withInputs rest s).BUF = s.BUF := rfl
@[simp] theorem withInputs_BUFN (rest : List HostEvent) (s : State) : (withInputs rest s).BUFN = s.BUFN := rfl
@[simp] theorem withInputs_LEN (rest : List HostEvent) (s : State) : (withInputs rest s).LEN = s.LEN := rfl
@[simp] theorem withInputs_PHASE (rest : List HostEvent) (s : State) : (withInputs rest s).PHASE = s.PHASE := rfl
@[simp] theorem withInputs_response (rest : List HostEvent) (s : State) : (withInputs rest s).response = s.response := rfl
@[simp] theorem withInputs_inputs (rest : List HostEvent) (s : State) : (withInputs rest s).inputs = rest := rfl

/-! ### resetEngine -/

@[simp] theorem resetEngine_H (s : State) : (resetEngine s).H = zeroMatrix := rfl
@[simp] theorem resetEngine_BUF (s : State) : (resetEngine s).BUF = Vector.replicate 64 0 := rfl
@[simp] theorem resetEngine_BUFN (s : State) : (resetEngine s).BUFN = 0 := rfl
@[simp] theorem resetEngine_LEN (s : State) : (resetEngine s).LEN = 0 := rfl
@[simp] theorem resetEngine_PHASE (s : State) : (resetEngine s).PHASE = .accum := rfl
@[simp] theorem resetEngine_response (s : State) : (resetEngine s).response = none := rfl
@[simp] theorem resetEngine_inputs (s : State) : (resetEngine s).inputs = s.inputs := rfl

/-! ### flush -/

@[simp] theorem flush_H (s : State) : (flush s).H = compress s.H (mat s.BUF) := rfl
@[simp] theorem flush_BUF (s : State) : (flush s).BUF = s.BUF := rfl
@[simp] theorem flush_BUFN (s : State) : (flush s).BUFN = 0 := rfl
@[simp] theorem flush_LEN (s : State) : (flush s).LEN = s.LEN := rfl
@[simp] theorem flush_PHASE (s : State) : (flush s).PHASE = s.PHASE := rfl
@[simp] theorem flush_response (s : State) : (flush s).response = s.response := rfl
@[simp] theorem flush_inputs (s : State) : (flush s).inputs = s.inputs := rfl

/-! ### storeByte -/

@[simp] theorem storeByte_H (b : Byte) (s : State) : (storeByte b s).H = s.H := rfl
@[simp] theorem storeByte_BUF (b : Byte) (s : State) : (storeByte b s).BUF = s.BUF.set s.BUFN.val b := rfl
@[simp] theorem storeByte_BUFN (b : Byte) (s : State) : (storeByte b s).BUFN = s.BUFN := rfl
@[simp] theorem storeByte_LEN (b : Byte) (s : State) : (storeByte b s).LEN = s.LEN + 8 := rfl
@[simp] theorem storeByte_PHASE (b : Byte) (s : State) : (storeByte b s).PHASE = s.PHASE := rfl
@[simp] theorem storeByte_response (b : Byte) (s : State) : (storeByte b s).response = s.response := rfl
@[simp] theorem storeByte_inputs (b : Byte) (s : State) : (storeByte b s).inputs = s.inputs := rfl

/-! ### setFill -/

@[simp] theorem setFill_H (n : Fin 64) (s : State) : (setFill n s).H = s.H := rfl
@[simp] theorem setFill_BUF (n : Fin 64) (s : State) : (setFill n s).BUF = s.BUF := rfl
@[simp] theorem setFill_BUFN (n : Fin 64) (s : State) : (setFill n s).BUFN = n := rfl
@[simp] theorem setFill_LEN (n : Fin 64) (s : State) : (setFill n s).LEN = s.LEN := rfl
@[simp] theorem setFill_PHASE (n : Fin 64) (s : State) : (setFill n s).PHASE = s.PHASE := rfl
@[simp] theorem setFill_response (n : Fin 64) (s : State) : (setFill n s).response = s.response := rfl
@[simp] theorem setFill_inputs (n : Fin 64) (s : State) : (setFill n s).inputs = s.inputs := rfl

/-! ### writeBuf -/

@[simp] theorem writeBuf_H (a : Nat) (v : List Byte) (s : State) : (writeBuf a v s).H = s.H := by simp only [writeBuf]
@[simp] theorem writeBuf_BUF (a : Nat) (v : List Byte) (s : State) : (writeBuf a v s).BUF = memWrite s.BUF a v := by simp only [writeBuf]
@[simp] theorem writeBuf_BUFN (a : Nat) (v : List Byte) (s : State) : (writeBuf a v s).BUFN = s.BUFN := by simp only [writeBuf]
@[simp] theorem writeBuf_LEN (a : Nat) (v : List Byte) (s : State) : (writeBuf a v s).LEN = s.LEN := by simp only [writeBuf]
@[simp] theorem writeBuf_PHASE (a : Nat) (v : List Byte) (s : State) : (writeBuf a v s).PHASE = s.PHASE := by simp only [writeBuf]
@[simp] theorem writeBuf_response (a : Nat) (v : List Byte) (s : State) : (writeBuf a v s).response = s.response := by simp only [writeBuf]
@[simp] theorem writeBuf_inputs (a : Nat) (v : List Byte) (s : State) : (writeBuf a v s).inputs = s.inputs := by simp only [writeBuf]

/-! ### Two states with the same fields -/

/-- A state is its seven fields. -/
theorem State.eq_of_fields {s t : State} (hH : s.H = t.H) (hB : s.BUF = t.BUF) (hN : s.BUFN = t.BUFN) (hL : s.LEN = t.LEN)
    (hP : s.PHASE = t.PHASE) (hR : s.response = t.response) (hI : s.inputs = t.inputs) : s = t := by
  cases s; cases t; simp_all

theorem accepting_iff (s : State) : s.accepting = true ↔ s.PHASE = .accum := by simp [State.accepting]

theorem exceedsCapacity_iff (s : State) (d : List Byte) :
    s.exceedsCapacity d = true ↔ 2 ^ 256 ≤ s.LEN.toNat + 8 * d.length := by
  unfold State.exceedsCapacity payloadBits
  exact decide_eq_true_iff

end Sys2Proof.Machine
end

