-- ==== Sys2Proof/Laws/Ops.lean ====
section
/-! SUPPORT. What each shared operation does, said once: error entry, the phase check, ABSORB and the loop of ABSORB, PAD.
The provers cite these instead of unfolding the operations. -/

namespace Sys2Proof.Machine

/-! ### Error entry and the phase check -/

theorem raiseError_accum (e : EngineError) {s : State} (h : s.PHASE = .accum) :
    raiseError e s = respond e.status [] (setPhase .failed (zeroise s)) := by
  simp [raiseError, State.accepting, h]

theorem raiseError_ended (e : EngineError) {s : State} (h : s.PHASE ≠ .accum) : raiseError e s = respond e.status [] s := by
  simp [raiseError, State.accepting, h]

@[simp] theorem raiseError_response (e : EngineError) (s : State) : (raiseError e s).response = some ⟨e.status, []⟩ := rfl

@[simp] theorem raiseError_inputs (e : EngineError) (s : State) : (raiseError e s).inputs = s.inputs := by
  unfold raiseError
  split <;> rfl

theorem whenAccepting_accum (run : State → State) {s : State} (h : s.PHASE = .accum) : whenAccepting run s = run s := by
  simp [whenAccepting, State.accepting, h]

theorem whenAccepting_ended (run : State → State) {s : State} (h : s.PHASE ≠ .accum) :
    whenAccepting run s = respond .errMisuse [] s := by
  simp [whenAccepting, State.accepting, h, raiseError_ended .misuse h, EngineError.status]

theorem zeroise_zeroised (s : State) : Zeroised (zeroise s) := ⟨rfl, rfl, rfl, rfl⟩

/-! ### ABSORB -/

theorem absorb_room {b : Byte} {s : State} (h : s.BUFN.val + 1 < 64) :
    absorb b s = setFill ⟨s.BUFN.val + 1, h⟩ (storeByte b s) := by
  simp [absorb, h]

theorem absorb_full {b : Byte} {s : State} (h : s.BUFN.val = 63) : absorb b s = flush (storeByte b s) := by
  simp [absorb, h]

@[simp] theorem absorb_LEN (b : Byte) (s : State) : (absorb b s).LEN = s.LEN + 8 := by unfold absorb; split <;> simp

@[simp] theorem absorb_PHASE (b : Byte) (s : State) : (absorb b s).PHASE = s.PHASE := by unfold absorb; split <;> simp

@[simp] theorem absorb_response (b : Byte) (s : State) : (absorb b s).response = s.response := by
  unfold absorb; split <;> simp

@[simp] theorem absorb_inputs (b : Byte) (s : State) : (absorb b s).inputs = s.inputs := by unfold absorb; split <;> simp

@[simp] theorem absorb_BUF (b : Byte) (s : State) : (absorb b s).BUF = s.BUF.set s.BUFN.val b := by
  unfold absorb; split <;> simp

theorem absorb_BUF_get (b : Byte) (s : State) (j : Fin 64) :
    (absorb b s).BUF[j] = if s.BUFN.val = j.val then b else s.BUF[j] := by
  simp only [absorb_BUF, Fin.getElem_fin, Vector.getElem_set]

theorem absorb_BUFN (b : Byte) (s : State) : (absorb b s).BUFN.val = (s.BUFN.val + 1) % 64 := by
  unfold absorb
  split
  · rename_i h
    exact (Nat.mod_eq_of_lt h).symm
  · rename_i h
    have : s.BUFN.val + 1 = 64 := by omega
    simp [this]

/-- One more byte of the stream, in the closed form of R134. -/
theorem absorb_absorbed {h : ByteMatrix} {m : List Byte} {s : State} (b : Byte) (hs : Absorbed h m s) :
    Absorbed h (m ++ [b]) (absorb b s) := by
  have hN := hs.bufn
  have hlen : (m ++ [b]).length = m.length + 1 := by simp
  by_cases hroom : s.BUFN.val + 1 < 64
  · have hq : (m ++ [b]).length / 64 = m.length / 64 := by omega
    have hr : (m ++ [b]).length % 64 = m.length % 64 + 1 := by omega
    refine ⟨?_, ?_, ?_⟩
    · rw [hq, chain_append (by omega), absorb_room hroom]
      simpa only [setFill_H, storeByte_H] using hs.chaining
    · rw [hr, ← hN, absorb_room hroom, setFill_BUFN]
    · intro j hj
      rw [hr] at hj
      rw [hq]
      rw [absorb_BUF_get]
      split
      · rw [List.getElem?_append_right (by omega), show 64 * (m.length / 64) + j.val - m.length = 0 by omega]
        rfl
      · rw [List.getElem?_append_left (by omega)]
        exact hs.tail j (by omega)
  · have h63 : s.BUFN.val = 63 := by omega
    have hq : (m ++ [b]).length / 64 = m.length / 64 + 1 := by omega
    have hr : (m ++ [b]).length % 64 = 0 := by omega
    have hblock : blockAt (m ++ [b]) (m.length / 64) = s.BUF.set s.BUFN.val b := by
      apply Vector.ext
      intro j hj
      rw [blockAt_get _ _ _ hj, Vector.getElem_set, List.getD_eq_getElem?_getD]
      split
      · rw [List.getElem?_append_right (by omega), show 64 * (m.length / 64) + j - m.length = 0 by omega]
        rfl
      · rw [List.getElem?_append_left (by omega), hs.tail ⟨j, hj⟩ (by simp only; omega)]
        rfl
    refine ⟨?_, ?_, ?_⟩
    · rw [hq, chain, chain_append (by omega), hblock, absorb_full h63, flush_H, storeByte_H, storeByte_BUF, hs.chaining]
    · rw [hr, absorb_full h63, flush_BUFN]
      rfl
    · intro j hj
      omega

/-! ### PAD -/

theorem padTail_H (l : BitVec 256) (n : Nat) (s : State) : (padTail l n s).H =
    compress s.H (mat (memWrite (memWrite s.BUF n (zeros (32 - n))) 32 (be256 l).toList)) := by
  rw [padTail, flush_H, writeBuf_H, writeBuf_H, writeBuf_BUF, writeBuf_BUF]

/-- PAD with room for the length field in the block. -/
theorem pad_one (l : BitVec 256) {s : State} (h : s.BUFN.val ≤ 31) :
    pad l s = padTail l (s.BUFN.val + 1) (writeBuf s.BUFN.val [Config.padMark] s) := by
  rw [pad, if_neg (by omega)]

/-- PAD without it: a block of marker and zeros goes first. -/
theorem pad_two (l : BitVec 256) {s : State} (h : 32 ≤ s.BUFN.val) :
    pad l s = padTail l 0 (flush (writeBuf (s.BUFN.val + 1) (zeros (64 - (s.BUFN.val + 1)))
      (writeBuf s.BUFN.val [Config.padMark] s))) := by
  rw [pad, if_pos (by omega)]

@[simp] theorem pad_BUFN (l : BitVec 256) (s : State) : (pad l s).BUFN = 0 := by
  rw [pad]; split <;> simp [padTail]

@[simp] theorem pad_LEN (l : BitVec 256) (s : State) : (pad l s).LEN = s.LEN := by
  rw [pad]; split <;> simp [padTail]

@[simp] theorem pad_PHASE (l : BitVec 256) (s : State) : (pad l s).PHASE = s.PHASE := by
  rw [pad]; split <;> simp [padTail]

@[simp] theorem pad_response (l : BitVec 256) (s : State) : (pad l s).response = s.response := by
  rw [pad]; split <;> simp [padTail]

@[simp] theorem pad_inputs (l : BitVec 256) (s : State) : (pad l s).inputs = s.inputs := by
  rw [pad]; split <;> simp [padTail]

/-! ### The loop of ABSORB -/

@[simp] theorem absorbAll_nil (s : State) : absorbAll [] s = s := rfl

@[simp] theorem absorbAll_cons (b : Byte) (d : List Byte) (s : State) :
    absorbAll (b :: d) s = absorbAll d (absorb b s) := rfl

theorem absorbAll_append (c d : List Byte) (s : State) : absorbAll (c ++ d) s = absorbAll d (absorbAll c s) :=
  List.foldl_append

/-- What holds of a state, and is kept by every ABSORB, holds after the loop. -/
theorem absorbAll_keeps {P : State → Prop} (hP : ∀ b s, P s → P (absorb b s)) (d : List Byte) {s : State} (hs : P s) :
    P (absorbAll d s) := by
  induction d generalizing s with
  | nil => exact hs
  | cons b d ih => exact ih (hP b s hs)

theorem absorbAll_PHASE (d : List Byte) (s : State) : (absorbAll d s).PHASE = s.PHASE :=
  absorbAll_keeps (P := fun t => t.PHASE = s.PHASE) (fun b t h => by simpa using h) d rfl

theorem absorbAll_response (d : List Byte) (s : State) : (absorbAll d s).response = s.response :=
  absorbAll_keeps (P := fun t => t.response = s.response) (fun b t h => by simpa using h) d rfl

theorem absorbAll_inputs (d : List Byte) (s : State) : (absorbAll d s).inputs = s.inputs :=
  absorbAll_keeps (P := fun t => t.inputs = s.inputs) (fun b t h => by simpa using h) d rfl

theorem absorbAll_BUFN (d : List Byte) (s : State) : (absorbAll d s).BUFN.val = (s.BUFN.val + d.length) % 64 := by
  induction d generalizing s with
  | nil => simp [Nat.mod_eq_of_lt s.BUFN.isLt]
  | cons b d ih => simp [ih, absorb_BUFN, Nat.add_assoc, Nat.add_comm]

/-- `LEN` grows by 8 per byte, and does not wrap while the total is representable (R25). -/
theorem absorbAll_LEN (d : List Byte) (s : State) (h : s.LEN.toNat + 8 * d.length < 2 ^ 256) :
    (absorbAll d s).LEN.toNat = s.LEN.toNat + 8 * d.length := by
  induction d generalizing s with
  | nil => simp
  | cons b d ih =>
    have h8 : (s.LEN + 8).toNat = s.LEN.toNat + 8 := by
      rw [BitVec.toNat_add, show (8 : BitVec 256).toNat = 8 from rfl, Nat.mod_eq_of_lt]
      simp only [List.length_cons] at h
      omega
    simp only [List.length_cons] at h ⊢
    rw [absorbAll_cons, ih _ (by rw [absorb_LEN, h8]; omega), absorb_LEN, h8]
    omega

theorem absorbAll_absorbed {h : ByteMatrix} {m : List Byte} {s : State} (d : List Byte) (hs : Absorbed h m s) :
    Absorbed h (m ++ d) (absorbAll d s) := by
  induction d generalizing m s with
  | nil => simpa using hs
  | cons b d ih => simpa using ih (absorb_absorbed b hs)

/-- Any state has absorbed the valid bytes of its own buffer, from its own chaining value. -/
theorem absorbed_self (s : State) : Absorbed s.H (s.BUF.toList.take s.BUFN.val) s := by
  have hlt := s.BUFN.isLt
  have hl : (s.BUF.toList.take s.BUFN.val).length = s.BUFN.val := by simp only [List.length_take, Vector.length_toList]; omega
  refine ⟨?_, ?_, ?_⟩
  · rw [hl, Nat.div_eq_of_lt hlt]
    rfl
  · rw [hl, Nat.mod_eq_of_lt hlt]
  · intro j hj
    rw [hl, Nat.mod_eq_of_lt hlt] at hj
    rw [hl, Nat.div_eq_of_lt hlt, Nat.mul_zero, Nat.zero_add, List.getElem?_take_of_lt hj]
    simp

end Sys2Proof.Machine
end

