-- ==== Sys2Proof/Laws/PerInstr.lean ====
section
/-! SUPPORT. Statements about every instruction as syntax, one lemma per constructor. -/

namespace Sys2Proof.Laws.WireLength

/-- R68: the whole command is `4 + len` bytes on a byte-wide port. -/
def Statement (i : Instr) : Prop :=
  i.wellFormed = true → (encodeWire i).length = 4 + (headerLen (encode i).header).toNat

theorem update (d : List Byte) : Statement (.update d) := by
  intro h
  rw [wellFormed_update] at h
  simp only [encodeWire, Transaction.toWire, encode, headerLen_append, List.length_append, List.length_cons, List.length_nil,
    BitVec.toNat_ofNat]
  omega

theorem finalize : Statement .finalize := fun _ => rfl

end Sys2Proof.Laws.WireLength
end

