-- ==== Sys2Proof/Laws/Step.lean ====
section
/-! SUPPORT. Everything a step can do, by the host's next event. -/

namespace Sys2Proof.Machine

theorem fetch_nil {s : State} (h : s.inputs = []) : fetch s = none := by simp [fetch, h]

theorem fetch_cons {s : State} {e : HostEvent} {rest : List HostEvent} (h : s.inputs = e :: rest) :
    fetch s = some (e, withInputs rest s) := by
  simp [fetch, h]

/-- The state after the event `e`, the state `s` having it taken off already. -/
def afterEvent (e : HostEvent) (s : State) : State :=
  match e with
  | .reset => resetEngine s
  | .resetDuring _ => resetEngine s
  | .command t =>
    match decode t with
    | .error _ => raiseError .illegal s
    | .ok (.update d) => whenAccepting (updateBody d) s
    | .ok .finalize => whenAccepting finalizeBody s

/-- The inversion lemma of `step`: it takes the next event, or does nothing when there is none. -/
theorem step_cases (s : State) :
    (s.inputs = [] ∧ step s = .next s) ∨
    (∃ e rest, s.inputs = e :: rest ∧ step s = .next (afterEvent e (withInputs rest s))) := by
  cases hi : s.inputs with
  | nil => exact .inl ⟨rfl, by simp [step, fetch_nil hi]⟩
  | cons e rest =>
    refine .inr ⟨e, rest, rfl, ?_⟩
    unfold step afterEvent
    rw [fetch_cons hi]
    cases e with
    | reset => rfl
    | resetDuring t => rfl
    | command t =>
      simp only
      cases decode t with
      | error why => rfl
      | ok i => cases i <;> rfl

/-! ### The two commands, by phase and capacity -/

theorem updateBody_over {d : List Byte} {s : State} (h : 2 ^ 256 ≤ s.LEN.toNat + 8 * d.length) :
    updateBody d s = raiseError .capacity s := by
  rw [updateBody, if_pos ((exceedsCapacity_iff s d).2 h)]

theorem updateBody_fits {d : List Byte} {s : State} (h : s.LEN.toNat + 8 * d.length < 2 ^ 256) :
    updateBody d s = respond .ok [] (absorbAll d s) := by
  rw [updateBody, if_neg (fun h' => absurd ((exceedsCapacity_iff s d).1 h') (Nat.not_le.2 h))]

@[simp] theorem finalizeBody_PHASE (s : State) : (finalizeBody s).PHASE = .final := rfl

@[simp] theorem finalizeBody_inputs (s : State) : (finalizeBody s).inputs = s.inputs := by
  simp only [finalizeBody, respond_inputs, setPhase_inputs, zeroise_inputs, pad_inputs]

theorem finalizeBody_response (s : State) : (finalizeBody s).response = some ⟨.ok, emit (pad s.LEN s)⟩ := rfl

/-- The five things a command transaction can do, each with its condition: Illegal, Misuse, Capacity, UPDATE, FINALIZE. -/
theorem afterCommand_cases (tr : Transaction) (s : State) :
    ((∃ why, decode tr = .error why) ∧ afterEvent (.command tr) s = raiseError .illegal s) ∨
    ((∃ i, decode tr = .ok i) ∧ s.PHASE ≠ .accum ∧ afterEvent (.command tr) s = respond .errMisuse [] s) ∨
    (s.PHASE = .accum ∧ ∃ d, decode tr = .ok (.update d) ∧ 2 ^ 256 ≤ s.LEN.toNat + 8 * d.length ∧
      afterEvent (.command tr) s = raiseError .capacity s) ∨
    (s.PHASE = .accum ∧ ∃ d, decode tr = .ok (.update d) ∧ s.LEN.toNat + 8 * d.length < 2 ^ 256 ∧
      afterEvent (.command tr) s = respond .ok [] (absorbAll d s)) ∨
    (s.PHASE = .accum ∧ decode tr = .ok .finalize ∧ afterEvent (.command tr) s = finalizeBody s) := by
  unfold afterEvent
  cases hd : decode tr with
  | error why => exact .inl ⟨⟨why, rfl⟩, by simp only [hd]⟩
  | ok i =>
    by_cases hp : s.PHASE = .accum
    · cases i with
      | update d =>
        by_cases hc : 2 ^ 256 ≤ s.LEN.toNat + 8 * d.length
        · exact .inr (.inr (.inl ⟨hp, d, rfl, hc, by simp only [hd, whenAccepting_accum _ hp, updateBody_over hc]⟩))
        · have hf := Nat.not_le.1 hc
          exact .inr (.inr (.inr (.inl ⟨hp, d, rfl, hf, by simp only [hd, whenAccepting_accum _ hp, updateBody_fits hf]⟩)))
      | finalize => exact .inr (.inr (.inr (.inr ⟨hp, rfl, by simp only [hd, whenAccepting_accum _ hp]⟩)))
    · exact .inr (.inl ⟨⟨i, rfl⟩, hp, by cases i <;> simp only [hd, whenAccepting_ended _ hp]⟩)

/-! ### Runs -/

theorem run_zero (M : Host.Core) (s : M.State) : M.run 0 s = .next s := rfl

theorem run_succ (M : Host.Core) (k : Nat) {s s' : M.State} (h : M.step s = .next s') : M.run (k + 1) s = M.run k s' := by
  simp only [Host.Core.run, h]

end Sys2Proof.Machine
end

