-- ==== Sys2Proof/Laws/Platform.lean ====
section
/-! SUPPORT. One step of a platform of instances: what moves, and what stays. -/

namespace Sys2Proof.Machine

theorem platformStep_idle {n : Nat} {p : Platform n} (h : p.schedule = []) : p.step = .next p := by
  simp only [Platform.step, h]

theorem platformStep_moves {n : Nat} {p : Platform n} {k : Fin n} {rest : List (Fin n)} {s : State}
    (h : p.schedule = k :: rest) (hs : step p.instances[k] = .next s) : p.step = .next (p.advance k rest s) := by
  simp only [Platform.step, h, hs]

@[simp] theorem advance_schedule {n : Nat} (p : Platform n) (k : Fin n) (rest : List (Fin n)) (s : State) :
    (p.advance k rest s).schedule = rest := rfl

theorem advance_same {n : Nat} (p : Platform n) (k : Fin n) (rest : List (Fin n)) (s : State) :
    (p.advance k rest s).instances[k] = s := by
  simp [Platform.advance]

theorem advance_other {n : Nat} (p : Platform n) {k j : Fin n} (h : k ≠ j) (rest : List (Fin n)) (s : State) :
    (p.advance k rest s).instances[j] = p.instances[j] := by
  have hne : k.val ≠ j.val := fun e => h (Fin.ext e)
  simp only [Platform.advance, Fin.getElem_fin, Vector.getElem_set_ne _ _ hne]

end Sys2Proof.Machine
end

