-- ==== Sys2Proof/Tests/Slice0.lean ====
section
/-! SUPPORT. The model's own tests. Expected values are from spec/95_test_vectors.md (V1, V2, V4, V5, V7, V11, V12) and from
the examples of the rules; V1 and V2 are the source's known-answer vectors. After them, for every statement of
Obligations.lean with hypotheses, a state and operands that meet them. -/

namespace Sys2Proof.Tests

open Sys2Proof Sys2Proof.Machine

set_option maxRecDepth 20000
set_option Elab.async false

/-- The 64 bytes of a 128-digit hexadecimal number, first byte first (R6). -/
def bytes64 (n : Nat) : Block := Vector.ofFn fun j => BitVec.ofNat 8 (n >>> (8 * (63 - j.val)))

/-- The block `00 01 ... 3F`. -/
def countingBlock : Block := Vector.ofFn fun j => BitVec.ofNat 8 j.val

/-- A small state: everything as after reset but what is given. -/
def sample (p : Phase) (n : Fin 64) (l : BitVec 256) (es : List HostEvent) : State :=
  { State.reset with PHASE := p, BUFN := n, LEN := l, inputs := es }

/-- The state after one step. -/
def after (s : State) : State :=
  match step s with
  | .next t => t
  | .fault _ => s
  | .refused _ => s

/-- The response, phase, fill and length after one step. -/
def shown (s : State) : Option Response × Phase × Nat × Nat :=
  ((after s).response, (after s).PHASE, (after s).BUFN.val, (after s).LEN.toNat)

/-- A command transaction as the host's only event. -/
def sent (h : BitVec 32) (p : List Byte) : List HostEvent := [.command ⟨h, p⟩]

/-! ### Well-formedness -/

theorem test_wellFormed_longest : (Instr.update (List.replicate 65535 0x00)).wellFormed = true := by
  rw [wellFormed_update, List.length_replicate]

theorem test_illFormed_too_long : (Instr.update (List.replicate 65536 0x00)).wellFormed = false := by
  rw [Bool.eq_false_iff, ne_eq, wellFormed_update, List.length_replicate]
  decide

/-! ### Decoding, from the bit layout of R61 and the vectors V12 -/

theorem test_decode_update_bits :
    decode ⟨0b00000001#8 ++ 0b00000000#8 ++ 0b0000000000000011#16, [0x61, 0x62, 0x63]⟩ = .ok (.update [0x61, 0x62, 0x63]) := by
  decide

theorem test_decode_finalize_bits : decode ⟨0b00000010#8 ++ 0b00000000#8 ++ 0b0000000000000000#16, []⟩ = .ok .finalize := by
  decide

theorem test_decode_illegal : decode ⟨0x00000000, []⟩ = .error .reservedOp ∧ decode ⟨0x02010000, []⟩ = .error .nonzeroField ∧
    decode ⟨0x02000001, []⟩ = .error .payloadLength ∧ decode ⟨0x02000001, [0x00]⟩ = .error .finalizeLength ∧
    decode ⟨0x02000000, [0x00]⟩ = .error .payloadLength ∧
    decode ⟨0x01000003, [0x61, 0x62, 0x63, 0x64]⟩ = .error .payloadLength := by decide

theorem test_wire_update : encodeWire (.update [0x61, 0x62, 0x63]) = [0x01, 0x00, 0x00, 0x03, 0x61, 0x62, 0x63] := by decide

theorem test_wire_finalize : encodeWire .finalize = [0x02, 0x00, 0x00, 0x00] := by decide

theorem test_wire_stream : Transaction.takeFirst [0x01, 0x00, 0x00, 0x01, 0x61, 0x02, 0x00] =
    some (⟨0x01000001, [0x61]⟩, [0x02, 0x00]) ∧ decodeWire [0x01, 0x00] = .error .truncatedHeader := by decide

theorem test_table_words : decodeTableWord 32 0x02000000 = some .finalize ∧
    decodeTableWord 32 0x01000002 = some (.update [0x00, 0x00]) ∧ decodeTableWord 32 0x02000001 = none := by decide

/-! ### The source notation (R69, R70, P3, P7) -/

theorem test_read_program :
    readProgram "UPDATE \"a;c\" ; a comment\n\n.reset\nUPDATE 61 6263\n.expect ERR_MISUSE\nFINALIZE".toList =
      some [.update (.quoted [0x61, 0x3B, 0x63]), .reset, .update (.bytes [0x61, 0x62, 0x63]), .expect ⟨.errMisuse, []⟩,
        .finalize] ∧
    readProgram "UPDATE 6".toList = none := by decide +kernel

theorem test_assemble : (readProgram "UPDATE \"abc\"\n.reset\nHASH \"\"".toList).map assemble =
    some [.command ⟨0x01000003, [0x61, 0x62, 0x63]⟩, .reset, .command ⟨0x01000000, []⟩, .command ⟨0x02000000, []⟩] := by
  decide +kernel

/-! ### Tables and layers (V4, V5) -/

theorem test_sbox : sbox 0x00 = 0x18 ∧ sbox 0x0F = 0x52 ∧ sbox 0x34 = 0xCB ∧ sbox 0x50 = 0x63 ∧ sbox 0x80 = 0x97 ∧
    sbox 0x81 = 0x00 ∧ sbox 0xFE = 0xF8 := by decide

theorem test_gmul : gmul 0x80 0x02 = 0x1D ∧ gmul 0x57 0x09 = 0xD5 ∧ gmul 0xFF 0x09 = 0x54 ∧ gmul 0xFF 0xFF = 0xE2 ∧
    gmul 0x18 0x03 = 0x28 := by decide

theorem test_roundConstant : (blk (roundConstant 10)).toList.take 9 = [0xCA, 0x2D, 0xBF, 0x07, 0xAD, 0x5A, 0x83, 0x33, 0x00] := by
  decide +kernel

theorem test_shift_counting : blk (shiftLayer (mat countingBlock)) =
    bytes64 0x0039322B241D160F08013A332C251E171009023B342D261F18110A033C352E272019120B043D362F28211A130C053E373029221B140D063F38312A231C150E07 := by
  decide +kernel

theorem test_mix_counting : blk (mixLayer (mat countingBlock)) =
    bytes64 0x3833360D343F3A01202B2E152C2722190803063D040F0A31101B1E251C1712295853566D545F5A61404B4E754C4742796863665D646F6A51707B7E457C777249 := by
  decide +kernel

theorem test_round_counting : blk (cipherRound (mat countingBlock) zeroMatrix) =
    bytes64 0x7C2EF93BEA918F116A254336F12B75EB47D7F6F2B59105AFFAA8D123E491CDD02B700BA07FBAB3B8D1327CDFC129D2B53373E9CC580544DD3F548EB77CCA791B := by
  decide +kernel

/-! ### Padding (V7) -/

theorem test_pad_a : (pad 8 (absorb 0x61 State.reset)).BUF =
    bytes64 0x61800000000000000000000000000000000000000000000000000000000000000000000000000000000000000000000000000000000000000000000000000008 := by
  decide +kernel

theorem test_padded_counts : [0, 1, 31, 32, 55, 56, 63, 64, 65, 95, 96, 127, 128].map blockCount =
      [1, 1, 1, 2, 2, 2, 2, 2, 2, 2, 3, 3, 3] ∧
    [0, 1, 31, 32, 55, 56, 63, 64, 65].map padZeros = [31, 30, 0, 63, 40, 39, 32, 31, 30] := by decide

/-! ### Commands and errors (V11) -/

theorem test_update_a : shown (sample .accum 0 0 (sent 0x01000001 [0x61])) = (some ⟨.ok, []⟩, .accum, 1, 8) ∧
    (after (sample .accum 0 0 (sent 0x01000001 [0x61]))).BUF[0] = 0x61 := by decide +kernel

theorem test_misuse_final : shown (sample .final 0 0 (sent 0x01000000 [])) = (some ⟨.errMisuse, []⟩, .final, 0, 0) := by
  decide +kernel

theorem test_illegal_kills : shown (sample .accum 2 16 (sent 0x00000000 [])) = (some ⟨.errIllegal, []⟩, .failed, 0, 0) := by
  decide +kernel

theorem test_illegal_final : shown (sample .final 0 0 (sent 0x03000000 [])) = (some ⟨.errIllegal, []⟩, .final, 0, 0) := by
  decide +kernel

theorem test_capacity_fits : shown (sample .accum 62 (BitVec.ofNat 256 (2 ^ 256 - 16)) (sent 0x01000001 [0x61])) =
    (some ⟨.ok, []⟩, .accum, 63, 2 ^ 256 - 8) := by decide +kernel

theorem test_capacity_over : shown (sample .accum 63 (BitVec.ofNat 256 (2 ^ 256 - 8)) (sent 0x01000001 [0x61])) =
    (some ⟨.errCapacity, []⟩, .failed, 0, 0) := by decide +kernel

theorem test_reset_event : after (sample .failed 0 0 [.reset]) = State.reset := by decide +kernel

/-- V1, the source's first known-answer vector, on the machine: FINALIZE from reset. The 128th digit is the derived one
(conflict C6). -/
theorem test_known_answer_empty : (after (State.reset.withFetchWord 32 0x02000000)).response = some ⟨.ok, (bytes64
    0x19FA61D75522A4669B44E39C1D2E1726C530232130D407F89AFEE0964997F7A73E83BE698B288FEBCF88E3E03C4F0757EA8964E59B63D93708B138CC42A66EB3).toList⟩ := by
  decide +kernel

/-- V2, the source's second: UPDATE "a", then FINALIZE. -/
theorem test_known_answer_a :
    (after (after { State.reset with inputs := sent 0x01000001 [0x61] ++ sent 0x02000000 [] })).response = some ⟨.ok, (bytes64
    0x8ACA2602792AEC6F11A67206531FB7D7F0DFF59413145E6973C45001D0087B42D11BC645413AEFF63A42391A39145A591A92200D560195E53B478584FDAE231A).toList⟩ := by
  decide +kernel

/-! ### Witnesses: for each statement with hypotheses, a state and operands that meet them, clause by clause -/

/-- The last length at which one more byte fits. -/
def nearFull : BitVec 256 := BitVec.ofNat 256 (2 ^ 256 - 16)

/-- The largest length there is: nothing more fits. -/
def full : BitVec 256 := BitVec.ofNat 256 (2 ^ 256 - 8)

theorem step_after (s : State) : step s = .next (after s) := by
  rcases step_cases s with ⟨-, h⟩ | ⟨_, _, -, h⟩ <;> simp only [after, h]

theorem exec_update (d : List Byte) (s : State) : exec (.update d) s = .next (whenAccepting (updateBody d) s) := rfl

/-- An UPDATE of one byte that completes no block, and one that does, are answered OK. -/
theorem update_answers (n : Fin 64) : (whenAccepting (updateBody [0x61]) (sample .accum n 0 [])).response = some ⟨.ok, []⟩ := by
  rw [whenAccepting_accum _ rfl, updateBody_fits (d := [0x61]) (s := sample .accum n 0 []) (show 0 + 8 * 1 < 2 ^ 256 by decide)]
  rfl

theorem witness_DecodeInvertsEncode : (Instr.update []).wellFormed = true ∧ (Instr.update [0x61]).wellFormed = true ∧
    (Instr.update (List.replicate 65535 0x00)).wellFormed = true ∧ Instr.finalize.wellFormed = true :=
  ⟨rfl, rfl, test_wellFormed_longest, rfl⟩

theorem witness_EncodeInvertsDecode : decode ⟨0x01000001, [0x61]⟩ = .ok (.update [0x61]) ∧
    decode ⟨0x01000000, []⟩ = .ok (.update []) ∧ decode ⟨0x02000000, []⟩ = .ok .finalize := by decide

theorem witness_TableRowsSelectCommands : updateRow.selects 0x0100FFFF = true ∧ finalizeRow.selects 0x02000000 = true ∧
    (updateRow.selects 0x02000001 = false ∧ finalizeRow.selects 0x02000001 = false) ∧
    (updateRow.selects 0x01010000 = false ∧ finalizeRow.selects 0x01010000 = false) := by decide

theorem witness_WireOrderAndLength :
    (Transaction.mk 0x01000001 [0x61]).payload.length = (headerLen 0x01000001).toNat ∧
    (Transaction.mk 0x02000000 []).payload.length = (headerLen 0x02000000).toNat := by decide

/-- R65 (a), (b), (c) and (d), each alone, with the state before it in ACCUM, FINAL or FAILED. -/
theorem witness_IllegalTransactionKills :
    (∀ h p, (sample .accum 3 24 (sent h p)).inputs = .command ⟨h, p⟩ :: [] ∧ (sample .accum 3 24 (sent h p)).PHASE = .accum) ∧
    (sample .final 0 0 (sent 0x03000000 [])).PHASE ≠ .accum ∧ (sample .failed 0 0 (sent 0x03000000 [])).PHASE ≠ .accum ∧
    IllegalTransaction ⟨0x03000000, []⟩ ∧ IllegalTransaction ⟨0x01010000, []⟩ ∧ IllegalTransaction ⟨0x02000001, [0x00]⟩ ∧
    IllegalTransaction ⟨0x01000001, []⟩ := by
  refine ⟨fun _ _ => ⟨rfl, rfl⟩, by decide, by decide, ?_, ?_, ?_, ?_⟩ <;> unfold IllegalTransaction <;> decide

theorem witness_RoundConstantBlocks : (1 ≤ 1 ∧ 1 ≤ 10) ∧ 1 ≤ 10 ∧ 10 ≤ 10 := by decide

/-- Two matrices that agree in column 0 and differ elsewhere. -/
theorem witness_MixLayerLinearInvertible :
    (∀ r : Fin 8, zeroMatrix[r][(0 : Fin 8)] = (tabulate fun _ c => if c = 0 then 0 else 1)[r][(0 : Fin 8)]) ∧
    zeroMatrix ≠ tabulate fun _ c => if c = 0 then 0 else 1 := by decide +kernel

theorem witness_CompressionStructure : 0 < 10 ∧ 9 < 10 := by decide

theorem witness_AbsorbStoresCountsFlushes :
    ((sample .accum 0 0 []).LEN.toNat + 8 < 2 ^ 256 ∧ (sample .accum 0 0 []).BUFN.val < 63) ∧
    ((sample .accum 62 nearFull []).LEN.toNat + 8 < 2 ^ 256 ∧ (sample .accum 62 nearFull []).BUFN.val < 63) ∧
    (sample .accum 63 504 []).LEN.toNat + 8 < 2 ^ 256 ∧ (sample .accum 63 504 []).BUFN.val = 63 := by decide +kernel

theorem witness_PadFlushesTheLaidOutBlocks : (sample .accum 0 0 []).BUFN.val ≤ 31 ∧ (sample .accum 31 248 []).BUFN.val ≤ 31 ∧
    32 ≤ (sample .accum 32 256 []).BUFN.val ∧ 32 ≤ (sample .accum 63 504 []).BUFN.val := by decide

/-- Not in ACCUM; over capacity by one bit; the last byte that fits; a byte that completes a block. -/
theorem witness_UpdateOutcomeInEveryPhase :
    (sample .final 0 0 []).PHASE ≠ .accum ∧ (sample .failed 0 0 []).PHASE ≠ .accum ∧
    ((sample .accum 63 full []).PHASE = .accum ∧ 2 ^ 256 ≤ (sample .accum 63 full []).LEN.toNat + 8 * [(0x61 : Byte)].length) ∧
    ((sample .accum 62 nearFull []).PHASE = .accum ∧
      (sample .accum 62 nearFull []).LEN.toNat + 8 * [(0x61 : Byte)].length < 2 ^ 256 ∧
      ((sample .accum 62 nearFull []).BUFN.val + [(0x61 : Byte)].length) / 64 = 0) ∧
    ((sample .accum 63 504 []).PHASE = .accum ∧ (sample .accum 63 504 []).LEN.toNat + 8 * [(0x61 : Byte)].length < 2 ^ 256) ∧
    (sample .accum 63 full []).LEN.toNat + 8 * ([] : List Byte).length < 2 ^ 256 := by decide +kernel

theorem witness_UpdateCompletesInClosedForm :
    ((sample .accum 62 nearFull []).PHASE = .accum ∧
      (sample .accum 62 nearFull []).LEN.toNat + 8 * [(0x61 : Byte)].length < 2 ^ 256) ∧
    (sample .accum 63 504 []).PHASE = .accum ∧ (sample .accum 63 504 []).LEN.toNat + 8 * [(0x61 : Byte)].length < 2 ^ 256 := by
  decide +kernel

theorem witness_UpdateFrame :
    (∃ t, exec (.update [0x61]) (sample .accum 62 0 []) = .next t ∧ t.response = some ⟨.ok, []⟩) ∧
    (∃ t, exec (.update [0x61]) (sample .accum 63 0 []) = .next t ∧ t.response = some ⟨.ok, []⟩) ∧
    (sample .accum 62 0 []).BUFN.val + [(0x61 : Byte)].length < 64 ∧
    ∀ j < [(0x61 : Byte)].length, ((sample .accum 63 0 []).BUFN.val + j) % 64 ≠ (0 : Fin 64).val :=
  ⟨⟨_, exec_update _ _, update_answers 62⟩, ⟨_, exec_update _ _, update_answers 63⟩, by decide, by decide⟩

theorem witness_FinalizeOutcomeInEveryPhase : (sample .final 0 0 []).PHASE ≠ .accum ∧ (sample .failed 0 0 []).PHASE ≠ .accum ∧
    (sample .accum 0 0 []).PHASE = .accum := by decide

theorem witness_FinalizeCompletesInClosedForm :
    ((sample .accum 31 248 []).PHASE = .accum ∧ (sample .accum 31 248 []).BUFN.val ≤ 31) ∧
    (sample .accum 32 256 []).PHASE = .accum ∧ ¬ (sample .accum 32 256 []).BUFN.val ≤ 31 := by decide

theorem witness_MisuseOutsideAccumOnly : (sample .final 0 0 []).PHASE ≠ .accum ∧ (sample .failed 0 0 []).PHASE ≠ .accum ∧
    (sample .accum 63 full []).PHASE = .accum := by decide

theorem witness_CapacityRefusesTheWholePayload :
    ∃ t, exec (.update [0x61]) (sample .accum 63 full []) = .next t ∧ t.response = some ⟨.errCapacity, []⟩ :=
  ⟨_, exec_update _ _, by decide +kernel⟩

/-- One transaction for each of the four answers. -/
theorem witness_ErrorPriority :
    (∀ p n l t, (sample p n l [.command t]).inputs = .command t :: []) ∧
    decode ⟨0x03000000, []⟩ = .error .reservedOp ∧
    (decode ⟨0x01000000, []⟩ = .ok (.update []) ∧ (sample .failed 0 0 []).PHASE ≠ .accum) ∧
    (decode ⟨0x01000001, [0x61]⟩ = .ok (.update [0x61]) ∧ 2 ^ 256 ≤ (sample .accum 63 full []).LEN.toNat + 8) ∧
    (decode ⟨0x01000001, [0x61]⟩ = .ok (.update [0x61]) ∧ (sample .accum 62 nearFull []).LEN.toNat + 8 < 2 ^ 256) ∧
    decode ⟨0x02000000, []⟩ = .ok .finalize := by
  refine ⟨fun _ _ _ _ => rfl, ?_⟩
  decide +kernel

theorem witness_ErrorEntryZeroisesOrChangesNothing :
    (∃ t, step (sample .accum 2 16 (sent 0x03000000 [])) = .next t ∧ t.response = some ⟨.errIllegal, []⟩) ∧
    (∃ t, step (sample .final 0 0 (sent 0x02000000 [])) = .next t ∧ t.response = some ⟨.errMisuse, []⟩) ∧
    (∃ t, step (sample .accum 63 full (sent 0x01000001 [0x61])) = .next t ∧ t.response = some ⟨.errCapacity, []⟩) :=
  ⟨⟨_, step_after _, by decide +kernel⟩, ⟨_, step_after _, by decide +kernel⟩, ⟨_, step_after _, by decide +kernel⟩⟩

theorem witness_StepRunsTheDecodedCommand :
    (sample .accum 0 0 (sent 0x01000001 [0x61])).inputs = .command ⟨0x01000001, [0x61]⟩ :: [] ∧
    decode ⟨0x01000001, [0x61]⟩ = .ok (.update [0x61]) := by decide

theorem witness_OneResponsePerCommand :
    (sample .accum 0 0 (sent 0x02000000 [])).inputs = .command ⟨0x02000000, []⟩ :: [] ∧
    (∃ t data, step (sample .accum 0 0 (sent 0x02000000 [])) = .next t ∧ t.response = some ⟨.ok, data⟩) ∧
    ∃ t, step (sample .final 0 0 (sent 0x02000000 [])) = .next t ∧ t.response = some ⟨.errMisuse, []⟩ :=
  ⟨rfl, ⟨_, _, step_after _, rfl⟩, ⟨_, step_after _, by decide +kernel⟩⟩

/-- The same three states as for `OneResponsePerCommand` meet the hypotheses of the wire format's statement. -/
theorem witness_ResponseWireFormat :
    (sample .accum 0 0 (sent 0x02000000 [])).inputs = .command ⟨0x02000000, []⟩ :: [] ∧
    decode ⟨0x02000000, []⟩ = .ok .finalize ∧ decode ⟨0x01000000, []⟩ ≠ .ok .finalize := by decide

theorem witness_IdleInstanceHoldsAndNoStepStops : (sample .accum 5 40 []).inputs = [] := rfl

theorem witness_ResetEventFromAnyPhase : (sample .failed 0 0 [.reset, .reset]).inputs = .reset :: [.reset] ∧
    (sample .accum 63 504 [.reset]).inputs = .reset :: [] := ⟨rfl, rfl⟩

theorem witness_ResetDuringCommandDropsIt :
    (sample .accum 63 504 [.resetDuring ⟨0x02000000, []⟩]).inputs = .resetDuring ⟨0x02000000, []⟩ :: [] := rfl

/-- Each way into FINAL and FAILED is taken by some step, and both are left by reset. -/
theorem witness_PhaseTransitions :
    (∃ t, step (sample .accum 0 0 (sent 0x02000000 [])) = .next t ∧ t.PHASE = .final) ∧
    (∃ t, step (sample .accum 0 0 (sent 0x00000000 [])) = .next t ∧ t.PHASE = .failed) ∧
    (∃ t, step (sample .accum 63 full (sent 0x01000001 [0x61])) = .next t ∧ t.PHASE = .failed) ∧
    (∃ t, step (sample .final 0 0 [.reset]) = .next t ∧ t.PHASE = .accum) ∧
    ∃ t, step (sample .failed 0 0 []) = .next t ∧ t.PHASE = .failed :=
  ⟨⟨_, step_after _, rfl⟩, ⟨_, step_after _, by decide +kernel⟩, ⟨_, step_after _, by decide +kernel⟩,
    ⟨_, step_after _, by decide +kernel⟩, ⟨_, step_after _, by decide +kernel⟩⟩

/-- An open computation that goes on, ends successfully, and ends in failure. -/
theorem witness_ComputationEndsWithItsResponse :
    (sample .accum 0 0 (sent 0x02000000 [])).ended = false ∧
    (∃ t, step (sample .accum 0 0 (sent 0x01000001 [0x61])) = .next t ∧ t.ended = false) ∧
    (∃ t, step (sample .accum 0 0 (sent 0x02000000 [])) = .next t ∧ t.endedSuccessfully = true) ∧
    ∃ t, step (sample .accum 0 0 (sent 0x03000000 [])) = .next t ∧ t.ended = true ∧ t.endedSuccessfully = false :=
  ⟨rfl, ⟨_, step_after _, by decide +kernel⟩, ⟨_, step_after _, by decide +kernel⟩, ⟨_, step_after _, by decide +kernel⟩⟩

theorem witness_holds : Holds [0x61] (absorb 0x61 (sample .accum 0 0 (sent 0x02000000 []))) where
  absorbed := absorb_absorbed (m := []) 0x61 ⟨rfl, rfl, fun _ h => absurd h (by simp)⟩
  len := by decide +kernel

/-- A state in each phase that has the invariant and takes a step; the first has absorbed "a" and is finalized next. -/
theorem witness_InvariantKeptByEveryStep :
    (∃ s t, s.PHASE = .accum ∧ s.inputs = sent 0x02000000 [] ∧ StateInv s ∧ step s = .next t) ∧
    (StateInv (sample .final 0 0 [.reset]) ∧ ∃ t, step (sample .final 0 0 [.reset]) = .next t) ∧
    StateInv (sample .failed 0 0 (sent 0x01000000 [])) ∧ ∃ t, step (sample .failed 0 0 (sent 0x01000000 [])) = .next t :=
  ⟨⟨absorb 0x61 (sample .accum 0 0 (sent 0x02000000 [])), _, rfl, rfl, ⟨_, witness_holds⟩, step_after _⟩,
    ⟨⟨rfl, rfl, rfl, rfl⟩, _, step_after _⟩, ⟨rfl, rfl, rfl, rfl⟩, _, step_after _⟩

theorem witness_StreamingEquivalence :
    (sample .accum 63 0 []).PHASE = .accum ∧ (sample .accum 63 0 []).LEN.toNat + 8 * [(0x61 : Byte)].length < 2 ^ 256 ∧
    ∃ t, exec (.update [0x61]) (sample .accum 63 0 []) = .next t := ⟨rfl, by decide, _, exec_update _ _⟩

/-- From a dead instance: an empty payload, a payload of the largest size, and one byte more. -/
theorem witness_DigestOfEverySplitting :
    let cs : List (List Byte) := [[], List.replicate 65535 0x00, [0x61]]
    (∀ c ∈ cs, c.length ≤ 65535) ∧ cs.flatten.length < 2 ^ 253 ∧
    ∃ s : State, s.PHASE = .failed ∧ s.inputs = .reset :: (cs.map fun c => issue (.update c)) ++ [issue .finalize] := by
  refine ⟨?_, ?_, ⟨sample .failed 0 0 _, rfl, rfl⟩⟩
  · simp only [List.mem_cons, List.not_mem_nil, or_false, forall_eq_or_imp, forall_eq, List.length_replicate, List.length_nil,
      List.length_cons]
    omega
  · simp only [List.flatten_cons, List.flatten_nil, List.length_append, List.length_replicate, List.length_nil,
      List.length_cons]
    norm_num

theorem witness_EndedRunAnswersNoData :
    (sample .final 0 0 (sent 0x02000000 [])).PHASE ≠ .accum ∧ NoReset (sample .final 0 0 (sent 0x02000000 [])).inputs ∧
    ∃ r, r ∈ transcript 1 (sample .final 0 0 (sent 0x02000000 [])) :=
  ⟨by decide, by simp [NoReset, sample, sent], ⟨.errMisuse, []⟩, by decide +kernel⟩

/-- Two states, with one message byte held, that differ in the last byte of `BUF`. -/
theorem witness_StaleBytesUnobservable :
    let s := sample .accum 1 8 (sent 0x02000000 [])
    SameButStale s { s with BUF := s.BUF.set 63 0xFF } ∧ s ≠ { s with BUF := s.BUF.set 63 0xFF } := by
  refine ⟨⟨rfl, by decide +kernel, rfl, rfl, rfl, rfl, rfl⟩, by decide +kernel⟩

/-- Two states with different chaining values, and an UPDATE. -/
theorem witness_ResponseButToFinalizeDependsOnPhaseAndLength :
    let s := sample .accum 1 8 (sent 0x01000000 [])
    let t := { s with H := tabulate fun _ _ => 0xFF }
    s.inputs = .command ⟨0x01000000, []⟩ :: [] ∧ t.inputs = s.inputs ∧ s.PHASE = t.PHASE ∧ s.LEN = t.LEN ∧
    decode ⟨0x01000000, []⟩ ≠ .ok .finalize ∧ s ≠ t := by
  refine ⟨rfl, rfl, rfl, rfl, by decide, by decide +kernel⟩

theorem split_two (n : Nat) (h : n = Config.lmax) :
    updatePayloads (List.replicate (n + 1) 0x00) = [List.replicate n 0x00, [0x00]] := by
  have hq : (n + 1) / Config.lmax = 1 := by rw [h]; decide
  rw [updatePayloads, List.length_replicate, hq, splitPayload, List.length_replicate, if_neg (by omega), List.take_replicate,
    List.drop_replicate, ← h, Nat.min_eq_left (by omega), Nat.add_sub_cancel_left]
  rfl

/-- 65536 bytes take two commands, so the clause on all but the last is about something. -/
theorem witness_LongUpdateSplits :
    updatePayloads (List.replicate 65536 0x00) = [List.replicate 65535 0x00, [0x00]] ∧ updatePayloads [] = [[]] :=
  ⟨split_two 65535 rfl, rfl⟩

/-- `HASH "a"` after `.reset`. -/
theorem witness_HashProgramAnswersTheDigest :
    (AsmOperand.quoted [0x61]).value.length < 2 ^ 253 ∧
    (sample .failed 0 0 [.reset, issue (.update [0x61]), issue .finalize]).inputs = assemble [.reset, .hash (.quoted [0x61])] :=
  ⟨by decide, rfl⟩

/-- An ended instance that is idle, and one that is sent a command, in either phase. -/
theorem witness_EndedInstanceStaysEndedUntilReset :
    (∀ p ∈ [Phase.final, Phase.failed], (sample p 0 0 []).ended = true ∧ (sample p 0 0 []).resetNext = false ∧
      (sample p 0 0 (sent 0x02000000 [])).ended = true ∧ (sample p 0 0 (sent 0x02000000 [])).resetNext = false ∧
      (sample p 0 0 (sent 0x02000000 [])).commandNext = true) ∧
    (∃ t, step (sample .final 0 0 []) = .next t) ∧ ∃ t, step (sample .failed 0 0 (sent 0x02000000 [])) = .next t :=
  ⟨by decide, ⟨_, step_after _⟩, ⟨_, step_after _⟩⟩

/-- The two states of `StaleBytesUnobservable`, on which a FINALIZE is next. -/
theorem witness_StepKeepsStatesAlikeButForStaleBytes :
    let s := sample .accum 1 8 (sent 0x02000000 [])
    SameButStale s { s with BUF := s.BUF.set 63 0xFF } ∧ s ≠ { s with BUF := s.BUF.set 63 0xFF } ∧ ∃ s', step s = .next s' :=
  ⟨witness_StaleBytesUnobservable.1, witness_StaleBytesUnobservable.2, _, step_after _⟩

end Sys2Proof.Tests
end

section
/-! PROOF. The length field `BE256` of spec/00_scope.md R6: what each of its bytes is, and the number that its bytes
write in base 256, most significant byte first. -/

namespace Sys2Proof.Machine

/-- R6: byte `j` of `BE256(n)` as a number. -/
theorem toNat_be256_getElem (n : BitVec 256) (j : Fin 32) :
    ((be256 n)[j]).toNat = (n.toNat >>> (8 * (31 - j.val))) % 256 := by
  simp [be256]

/-- The low `k` bytes of `x`, most significant first, appended as base-256 digits to the number `acc` read so far. -/
theorem foldl_low_bytes {w : Nat} (x : BitVec w) (k acc : Nat) :
    (List.ofFn fun j : Fin k => x.extractLsb' (8 * (k - 1 - j.val)) 8).foldl (fun acc b => 256 * acc + b.toNat) acc =
      256 ^ k * acc + x.toNat % 256 ^ k := by
  induction k generalizing acc with
  | zero => simp [Nat.mod_one]
  | succ k ih =>
    have tail : ∀ j : Fin k, k - j.succ.val = k - 1 - j.val := fun j => by rw [Fin.val_succ, Nat.sub_sub, Nat.add_comm]
    have head : (x.extractLsb' (8 * k) 8).toNat = x.toNat / 256 ^ k % 256 := by
      simp [Nat.shiftRight_eq_div_pow, Nat.pow_mul]
    rw [List.ofFn_succ, List.foldl_cons]
    simp only [Fin.val_zero, Nat.add_sub_cancel, Nat.sub_zero, tail]
    rw [ih, head, Nat.mod_pow_succ]
    ring

/-- Settles O12: the field's 32 bytes are the low 32 bytes of a number below `256 ^ 32`, so they read as that number. -/
theorem lengthFieldIsBigEndian : Obligations.LengthFieldIsBigEndian := by
  intro n
  refine ⟨?_, toNat_be256_getElem n⟩
  have hn : n.toNat < 256 ^ 32 := n.isLt
  rw [be256, Vector.toList_ofFn, foldl_low_bytes n 32 0, Nat.mod_eq_of_lt hn, Nat.mul_zero, Nat.zero_add]

end Sys2Proof.Machine
end

section
/-! PROOF. One step, whatever it does: no step stops (spec/60_exceptions.md R160), an idle step holds the state
(spec/10_state.md R20), and `step_cases` read backwards, from the next state; then the values of reset (R32). -/

namespace Sys2Proof.Machine

/-- Every step has a next state. -/
theorem exists_step_eq_next (s : State) : ∃ t, step s = .next t := by
  rcases step_cases s with ⟨-, h⟩ | ⟨e, rest, -, h⟩
  · exact ⟨s, h⟩
  · exact ⟨_, h⟩

theorem step_idle {s : State} (h : s.inputs = []) : step s = .next s := by
  simp only [step, fetch_nil h]

@[simp] theorem afterEvent_reset (s : State) : afterEvent .reset s = resetEngine s := rfl

@[simp] theorem afterEvent_resetDuring (tr : Transaction) (s : State) : afterEvent (.resetDuring tr) s = resetEngine s := rfl

theorem step_event {s : State} {e : HostEvent} {rest : List HostEvent} (h : s.inputs = e :: rest) :
    step s = .next (afterEvent e (withInputs rest s)) := by
  rcases step_cases s with ⟨hi, -⟩ | ⟨e', rest', hi, hs⟩
  · rw [h] at hi
    cases hi
  · rw [h] at hi
    cases hi
    exact hs

/-- The next state of a step, by the host's next event. -/
theorem step_eq_next_cases {s t : State} (h : step s = .next t) :
    (s.inputs = [] ∧ t = s) ∨ ∃ e rest, s.inputs = e :: rest ∧ t = afterEvent e (withInputs rest s) := by
  rcases step_cases s with ⟨hi, hs⟩ | ⟨e, rest, hi, hs⟩
  · rw [hs] at h
    exact .inl ⟨hi, (Host.Outcome.next.inj h).symm⟩
  · rw [hs] at h
    exact .inr ⟨e, rest, hi, (Host.Outcome.next.inj h).symm⟩

/-- Settles O34: every step is a next state, and with no event left it is the same state. -/
theorem idleInstanceHoldsAndNoStepStops : Obligations.IdleInstanceHoldsAndNoStepStops :=
  ⟨exists_step_eq_next, fun _ => step_idle⟩

theorem reset_zeroised : Zeroised State.reset := ⟨rfl, rfl, rfl, rfl⟩

/-- Settles O35: the registers are zeroised, so every cell of `H` and byte of `BUF` is zero, and the rest is as written. -/
theorem resetStateValues : Obligations.ResetStateValues := by
  obtain ⟨hH, hBUF, hBUFN, hLEN⟩ := reset_zeroised
  refine ⟨fun r c => ?_, rfl, hLEN, hBUFN, fun j => ?_, rfl⟩
  · rw [hH, zeroMatrix_get]
  · simp [hBUF]

end Sys2Proof.Machine
end

section
/-! PROOF. The invariant of spec/10_state.md R26 and R22: it is about the registers alone, a zeroised state has it in
every phase (with the empty message in ACCUM), and every event keeps it. -/

namespace Sys2Proof.Machine

theorem stateInv_accum_iff {s : State} (h : s.PHASE = .accum) : StateInv s ↔ ∃ m, Holds m s := by
  simp only [StateInv, h]

theorem stateInv_ended_iff {s : State} (h : s.PHASE ≠ .accum) : StateInv s ↔ Zeroised s := by
  unfold StateInv
  split
  · contradiction
  · rfl
  · rfl

/-! ### The invariant reads the registers alone -/

theorem respond_sameRegisters (st : Status) (data : List Byte) (s : State) : SameRegisters s (respond st data s) :=
  ⟨rfl, rfl, rfl, rfl, rfl⟩

theorem withInputs_sameRegisters (rest : List HostEvent) (s : State) : SameRegisters s (withInputs rest s) :=
  ⟨rfl, rfl, rfl, rfl, rfl⟩

theorem holds_of_sameRegisters {m : List Byte} {s t : State} (hst : SameRegisters s t) (hs : Holds m s) : Holds m t where
  absorbed := {
    chaining := hst.H.trans hs.absorbed.chaining
    bufn := by rw [hst.BUFN, hs.absorbed.bufn]
    tail := fun j hj => by rw [hst.BUF, hs.absorbed.tail j hj] }
  len := by rw [hst.LEN, hs.len]

theorem zeroised_of_sameRegisters {s t : State} (hst : SameRegisters s t) (hs : Zeroised s) : Zeroised t := by
  obtain ⟨hH, hBUF, hBUFN, hLEN⟩ := hs
  exact ⟨hst.H.trans hH, hst.BUF.trans hBUF, hst.BUFN.trans hBUFN, hst.LEN.trans hLEN⟩

theorem stateInv_of_sameRegisters {s t : State} (hst : SameRegisters s t) (hs : StateInv s) : StateInv t := by
  by_cases hp : s.PHASE = .accum
  · obtain ⟨m, hm⟩ := (stateInv_accum_iff hp).1 hs
    exact (stateInv_accum_iff (hst.PHASE.trans hp)).2 ⟨m, holds_of_sameRegisters hst hm⟩
  · have hp' : t.PHASE ≠ .accum := by rwa [hst.PHASE]
    exact (stateInv_ended_iff hp').2 (zeroised_of_sameRegisters hst ((stateInv_ended_iff hp).1 hs))

/-! ### A zeroised state has the invariant -/

theorem holds_nil_of_zeroised {s : State} (hs : Zeroised s) : Holds [] s := by
  obtain ⟨hH, -, hBUFN, hLEN⟩ := hs
  refine ⟨⟨hH, by simp [hBUFN], fun j hj => ?_⟩, by simp [hLEN]⟩
  simp at hj

theorem stateInv_of_zeroised {s : State} (hs : Zeroised s) : StateInv s := by
  by_cases hp : s.PHASE = .accum
  · exact (stateInv_accum_iff hp).2 ⟨[], holds_nil_of_zeroised hs⟩
  · exact (stateInv_ended_iff hp).2 hs

theorem resetEngine_zeroised (s : State) : Zeroised (resetEngine s) := ⟨rfl, rfl, rfl, rfl⟩

theorem raiseError_zeroised (e : EngineError) {s : State} (hp : s.PHASE = .accum) : Zeroised (raiseError e s) := by
  rw [raiseError_accum e hp]
  exact ⟨rfl, rfl, rfl, rfl⟩

theorem finalizeBody_zeroised (s : State) : Zeroised (finalizeBody s) := ⟨rfl, rfl, rfl, rfl⟩

/-! ### Events keep the invariant -/

theorem raiseError_stateInv (e : EngineError) {s : State} (hs : StateInv s) : StateInv (raiseError e s) := by
  by_cases hp : s.PHASE = .accum
  · exact stateInv_of_zeroised (raiseError_zeroised e hp)
  · rw [raiseError_ended e hp]
    exact stateInv_of_sameRegisters (respond_sameRegisters _ _ s) hs

/-- R134: with room for its bits, a payload continues the message. -/
theorem absorbAll_holds {m : List Byte} {s : State} (d : List Byte) (hfit : s.LEN.toNat + 8 * d.length < 2 ^ 256)
    (hs : Holds m s) : Holds (m ++ d) (absorbAll d s) where
  absorbed := absorbAll_absorbed d hs.absorbed
  len := by rw [absorbAll_LEN d s hfit, hs.len, List.length_append, Nat.mul_add]

theorem afterEvent_stateInv (e : HostEvent) {s : State} (hs : StateInv s) : StateInv (afterEvent e s) := by
  cases e with
  | reset => exact stateInv_of_zeroised (resetEngine_zeroised s)
  | resetDuring t => exact stateInv_of_zeroised (resetEngine_zeroised s)
  | command tr =>
    rcases afterCommand_cases tr s with ⟨-, h⟩ | ⟨-, -, h⟩ | ⟨-, -, -, -, h⟩ | ⟨hp, d, -, hfit, h⟩ | ⟨-, -, h⟩ <;> rw [h]
    · exact raiseError_stateInv .illegal hs
    · exact stateInv_of_sameRegisters (respond_sameRegisters _ _ s) hs
    · exact raiseError_stateInv .capacity hs
    · obtain ⟨m, hm⟩ := (stateInv_accum_iff hp).1 hs
      refine stateInv_of_sameRegisters (respond_sameRegisters _ _ _) ?_
      exact (stateInv_accum_iff ((absorbAll_PHASE d s).trans hp)).2 ⟨m ++ d, absorbAll_holds d hfit hm⟩
    · exact stateInv_of_zeroised (finalizeBody_zeroised s)

/-- Settles O41: taking the event off changes no register, and every event keeps the invariant. -/
theorem invariantKeptByEveryStep : Obligations.InvariantKeptByEveryStep := by
  intro s t hs hstep
  rcases step_eq_next_cases hstep with ⟨-, rfl⟩ | ⟨e, rest, -, rfl⟩
  · exact hs
  · exact afterEvent_stateInv e (stateInv_of_sameRegisters (withInputs_sameRegisters rest s) hs)

/-- Settles O40: reset zeroises the registers. -/
theorem invariantAtReset : Obligations.InvariantAtReset :=
  ⟨stateInv_of_zeroised reset_zeroised, holds_nil_of_zeroised reset_zeroised⟩

end Sys2Proof.Machine
end

section
/-! PROOF. The stale bytes of `BUF` (spec/10_state.md R23): ABSORB and PAD overwrite them before FLUSH reads them, and every
other operation leaves them alone or zeroises them, so a step keeps two states alike in everything else. -/

namespace Sys2Proof.Machine

/-! ### Blocks that agree below a fill -/

/-- The bytes of the two blocks at the indices below `n` are the same. -/
def AgreeBelow (n : Nat) (b b' : Block) : Prop := ∀ j : Fin 64, j.val < n → b'[j] = b[j]

theorem agreeBelow_mono {m n : Nat} {b b' : Block} (hmn : m ≤ n) (h : AgreeBelow n b b') : AgreeBelow m b b' :=
  fun j hj => h j (hj.trans_le hmn)

theorem eq_of_agreeBelow {b b' : Block} (h : AgreeBelow 64 b b') : b' = b :=
  Vector.ext fun j hj => h ⟨j, hj⟩ hj

theorem agreeBelow_set {n : Nat} {b b' : Block} (hn : n < 64) (x : Byte) (h : AgreeBelow n b b') :
    AgreeBelow (n + 1) (b.set n x) (b'.set n x) := by
  intro j hj
  simp only [Fin.getElem_fin, Vector.getElem_set]
  split
  · rfl
  · exact h j (by omega)

/-- Writing the same bytes from `a` on extends the agreement over them. -/
theorem agreeBelow_memWrite {a n : Nat} {b b' : Block} {v : List Byte} (hn : n = a + v.length) (h : AgreeBelow a b b') :
    AgreeBelow n (memWrite b a v) (memWrite b' a v) := by
  intro j hj
  simp only [Fin.getElem_fin, memWrite_get]
  split
  · rfl
  · exact h j (by omega)

theorem sameButStale_agreeBelow {s t : State} (h : SameButStale s t) : AgreeBelow s.BUFN.val s.BUF t.BUF := h.valid

/-! ### ABSORB -/

theorem absorb_H (b : Byte) (s : State) : (absorb b s).H =
    if s.BUFN.val = 63 then compress s.H (mat (s.BUF.set s.BUFN.val b)) else s.H := by
  split
  · next h => rw [absorb_full h, flush_H, storeByte_H, storeByte_BUF]
  · next h => rw [absorb_room (by omega), setFill_H, storeByte_H]

/-- The byte is stored just past the valid ones; when that completes the block, no byte of it is stale. -/
theorem absorb_sameButStale (b : Byte) {s t : State} (h : SameButStale s t) : SameButStale (absorb b s) (absorb b t) := by
  have hset : AgreeBelow (s.BUFN.val + 1) (s.BUF.set s.BUFN.val b) (t.BUF.set s.BUFN.val b) :=
    agreeBelow_set s.BUFN.isLt b (sameButStale_agreeBelow h)
  refine ⟨?_, ?_, ?_, by simp [h.LEN], by simp [h.PHASE], by simp [h.response], by simp [h.inputs]⟩
  · simp only [absorb_H, h.BUFN, h.H]
    split
    · next hfull => rw [eq_of_agreeBelow (agreeBelow_mono (by omega) hset)]
    · rfl
  · intro j hj
    simp only [absorb_BUF, h.BUFN]
    rw [absorb_BUFN] at hj
    exact hset j (by omega)
  · rw [Fin.ext_iff, absorb_BUFN, absorb_BUFN, h.BUFN]

theorem absorbAll_sameButStale (d : List Byte) {s t : State} (h : SameButStale s t) :
    SameButStale (absorbAll d s) (absorbAll d t) := by
  induction d generalizing s t with
  | nil => exact h
  | cons b d ih => exact ih (absorb_sameButStale b h)

/-! ### PAD -/

theorem zeros_length (n : Nat) : (zeros n).length = n := List.length_replicate

/-- The last block of PAD is read only below the fill it starts from. -/
theorem padTail_H_congr (l : BitVec 256) {n : Nat} {s t : State} (hn : n ≤ 32) (hH : t.H = s.H)
    (hBUF : AgreeBelow n s.BUF t.BUF) : (padTail l n t).H = (padTail l n s).H := by
  have hzeros : AgreeBelow 32 (memWrite s.BUF n (zeros (32 - n))) (memWrite t.BUF n (zeros (32 - n))) :=
    agreeBelow_memWrite (by rw [zeros_length]; omega) hBUF
  have hblock := eq_of_agreeBelow (agreeBelow_memWrite (v := (be256 l).toList) (by rw [Vector.length_toList]) hzeros)
  rw [padTail_H, padTail_H, hH, hblock]

/-- PAD writes every byte from the fill on before it flushes, so the chaining value after it reads no stale byte. -/
theorem pad_H_congr (l : BitVec 256) {s t : State} (h : SameButStale s t) : (pad l t).H = (pad l s).H := by
  have hmark : AgreeBelow (s.BUFN.val + 1) (memWrite s.BUF s.BUFN.val [Config.padMark])
      (memWrite t.BUF s.BUFN.val [Config.padMark]) :=
    agreeBelow_memWrite (by rw [List.length_singleton]) (sameButStale_agreeBelow h)
  rcases Nat.lt_or_ge 31 s.BUFN.val with hn | hn
  · have hn' : 31 < t.BUFN.val := by rwa [h.BUFN]
    have hfirst := eq_of_agreeBelow
      (agreeBelow_memWrite (v := zeros (64 - (s.BUFN.val + 1))) (by rw [zeros_length]; omega) hmark)
    rw [pad_two l hn, pad_two l hn', h.BUFN]
    refine padTail_H_congr l (by omega) ?_ (fun j hj => absurd hj (Nat.not_lt_zero _))
    simp only [flush_H, writeBuf_H, writeBuf_BUF, h.H, hfirst]
  · have hn' : t.BUFN.val ≤ 31 := by rwa [h.BUFN]
    rw [pad_one l hn, pad_one l hn', h.BUFN]
    refine padTail_H_congr l (by omega) ?_ ?_
    · simp only [writeBuf_H, h.H]
    · simpa only [writeBuf_BUF] using hmark

/-! ### Commands and events -/

/-- Zeroised states have no bytes to differ in. -/
theorem sameButStale_of_zeroised {s t : State} (hs : Zeroised s) (ht : Zeroised t) (hP : t.PHASE = s.PHASE)
    (hR : t.response = s.response) (hI : t.inputs = s.inputs) : SameButStale s t := by
  obtain ⟨hsH, -, hsN, hsL⟩ := hs
  obtain ⟨htH, -, htN, htL⟩ := ht
  refine ⟨htH.trans hsH.symm, fun j hj => ?_, htN.trans hsN.symm, htL.trans hsL.symm, hP, hR, hI⟩
  simp [hsN] at hj

theorem withInputs_sameButStale (rest : List HostEvent) {s t : State} (h : SameButStale s t) :
    SameButStale (withInputs rest s) (withInputs rest t) :=
  ⟨h.H, h.valid, h.BUFN, h.LEN, h.PHASE, h.response, rfl⟩

theorem respond_sameButStale (st : Status) (data : List Byte) {s t : State} (h : SameButStale s t) :
    SameButStale (respond st data s) (respond st data t) :=
  ⟨h.H, h.valid, h.BUFN, h.LEN, h.PHASE, rfl, h.inputs⟩

theorem resetEngine_sameButStale {s t : State} (h : SameButStale s t) : SameButStale (resetEngine s) (resetEngine t) :=
  sameButStale_of_zeroised (resetEngine_zeroised s) (resetEngine_zeroised t) rfl rfl h.inputs

theorem raiseError_sameButStale (e : EngineError) {s t : State} (h : SameButStale s t) :
    SameButStale (raiseError e s) (raiseError e t) := by
  by_cases hp : s.PHASE = .accum
  · have hp' : t.PHASE = .accum := h.PHASE.trans hp
    refine sameButStale_of_zeroised (raiseError_zeroised e hp) (raiseError_zeroised e hp') ?_ rfl (by simp [h.inputs])
    simp [raiseError_accum e hp, raiseError_accum e hp']
  · rw [raiseError_ended e hp, raiseError_ended e (by rwa [h.PHASE])]
    exact respond_sameButStale _ _ h

theorem updateBody_sameButStale (d : List Byte) {s t : State} (h : SameButStale s t) :
    SameButStale (updateBody d s) (updateBody d t) := by
  by_cases hc : 2 ^ 256 ≤ s.LEN.toNat + 8 * d.length
  · rw [updateBody_over hc, updateBody_over (by rwa [h.LEN])]
    exact raiseError_sameButStale .capacity h
  · rw [updateBody_fits (Nat.not_le.1 hc), updateBody_fits (by rw [h.LEN]; exact Nat.not_le.1 hc)]
    exact respond_sameButStale _ _ (absorbAll_sameButStale d h)

theorem finalizeBody_sameButStale {s t : State} (h : SameButStale s t) :
    SameButStale (finalizeBody s) (finalizeBody t) := by
  refine sameButStale_of_zeroised (finalizeBody_zeroised s) (finalizeBody_zeroised t) ?_ ?_ (by simp [h.inputs])
  · rw [finalizeBody_PHASE, finalizeBody_PHASE]
  · rw [finalizeBody_response, finalizeBody_response, emit, emit, h.LEN, pad_H_congr s.LEN h]

theorem whenAccepting_sameButStale {run : State → State}
    (hrun : ∀ {s t : State}, SameButStale s t → SameButStale (run s) (run t)) {s t : State} (h : SameButStale s t) :
    SameButStale (whenAccepting run s) (whenAccepting run t) := by
  by_cases hp : s.PHASE = .accum
  · rw [whenAccepting_accum run hp, whenAccepting_accum run (h.PHASE.trans hp)]
    exact hrun h
  · rw [whenAccepting_ended run hp, whenAccepting_ended run (by rwa [h.PHASE])]
    exact respond_sameButStale _ _ h

theorem afterEvent_sameButStale (e : HostEvent) {s t : State} (h : SameButStale s t) :
    SameButStale (afterEvent e s) (afterEvent e t) := by
  cases e with
  | reset => exact resetEngine_sameButStale h
  | resetDuring tr => exact resetEngine_sameButStale h
  | command tr =>
    simp only [afterEvent]
    cases decode tr with
    | error why => exact raiseError_sameButStale .illegal h
    | ok i =>
      cases i with
      | update d => exact whenAccepting_sameButStale (updateBody_sameButStale d) h
      | finalize => exact whenAccepting_sameButStale finalizeBody_sameButStale h

/-- Settles O51: the two states take the same event, and every event keeps the likeness, the response included. -/
theorem stepKeepsStatesAlikeButForStaleBytes : Obligations.StepKeepsStatesAlikeButForStaleBytes := by
  intro s t s' h hstep
  rcases step_eq_next_cases hstep with ⟨hi, rfl⟩ | ⟨e, rest, hi, rfl⟩
  · exact ⟨t, step_idle (h.inputs.trans hi), h, h.response.symm⟩
  · have h' := afterEvent_sameButStale e (withInputs_sameButStale rest h)
    exact ⟨_, step_event (h.inputs.trans hi), h', h'.response.symm⟩

/-! ### Runs -/

theorem transcript_succ {s s' : State} (n : Nat) (h : step s = .next s') :
    transcript (n + 1) s = (if s.commandNext then s'.response.toList else []) ++ transcript n s' := by
  simp only [transcript, h]

/-- Settles O45, by induction on the number of steps, each of which keeps the likeness (O51). -/
theorem staleBytesUnobservable : Obligations.StaleBytesUnobservable := by
  intro n
  induction n with
  | zero => exact fun _ _ _ => rfl
  | succ n ih =>
    intro s t h
    obtain ⟨s', hs⟩ := exists_step_eq_next s
    obtain ⟨t', ht, h', hresponse⟩ := stepKeepsStatesAlikeButForStaleBytes s t s' h hs
    have hcommand : s.commandNext = t.commandNext := by rw [State.commandNext, State.commandNext, h.inputs]
    rw [transcript_succ n hs, transcript_succ n ht, ih s' t' h', hcommand, hresponse]

end Sys2Proof.Machine
end

section
/-! PROOF. The transitions of `PHASE` (spec/10_state.md R27), and what the response to a command that is no FINALIZE says of
the registers (R28). -/

namespace Sys2Proof.Machine

/-! ### The phase after an event: in each proof the cases are Illegal, Misuse, Capacity, UPDATE, FINALIZE -/

theorem raiseError_PHASE (e : EngineError) (s : State) :
    (raiseError e s).PHASE = if s.PHASE = .accum then .failed else s.PHASE := by
  split
  · next h => rw [raiseError_accum e h, respond_PHASE, setPhase_PHASE]
  · next h => rw [raiseError_ended e h, respond_PHASE]

/-- R164, R133: in ACCUM the transaction would be answered with an error, being illegal or an UPDATE over capacity. -/
def ErrorInAccum (tr : Transaction) (s : State) : Prop :=
  (∃ why, decode tr = .error why) ∨ ∃ d, decode tr = .ok (.update d) ∧ 2 ^ 256 ≤ s.LEN.toNat + 8 * d.length

theorem afterCommand_PHASE_eq_final_iff (tr : Transaction) (s : State) :
    (afterEvent (.command tr) s).PHASE = .final ↔
      s.PHASE = .final ∨ (s.PHASE = .accum ∧ decode tr = .ok .finalize) := by
  rcases afterCommand_cases tr s with ⟨⟨why, hd⟩, h⟩ | ⟨-, hp, h⟩ | ⟨hp, d, hd, -, h⟩ | ⟨hp, d, hd, -, h⟩ | ⟨hp, hd, h⟩ <;>
    rw [h]
  · by_cases hp : s.PHASE = .accum <;> simp [raiseError_PHASE, hp, hd]
  · simp [hp]
  · simp [raiseError_PHASE, hp, hd]
  · simp [absorbAll_PHASE, hp, hd]
  · simp [hp, hd]

theorem afterCommand_PHASE_eq_failed_iff (tr : Transaction) (s : State) :
    (afterEvent (.command tr) s).PHASE = .failed ↔ s.PHASE = .failed ∨ (s.PHASE = .accum ∧ ErrorInAccum tr s) := by
  rcases afterCommand_cases tr s with ⟨⟨why, hd⟩, h⟩ | ⟨-, hp, h⟩ | ⟨hp, d, hd, hc, h⟩ | ⟨hp, d, hd, hc, h⟩ | ⟨hp, hd, h⟩ <;>
    rw [h]
  · by_cases hp : s.PHASE = .accum <;> simp [raiseError_PHASE, hp, ErrorInAccum, hd]
  · simp [hp]
  · simp [-Nat.reducePow, raiseError_PHASE, hp, ErrorInAccum, hd, hc]
  · simp [-Nat.reducePow, absorbAll_PHASE, hp, ErrorInAccum, hd, hc]
  · simp [hp, ErrorInAccum, hd]

/-- Settles O38: the codes and the reset value are as written; a step by its event: none holds the phase, a reset goes to
ACCUM, and a command is the two lemmas above. -/
theorem phaseTransitions : Obligations.PhaseTransitions := by
  refine ⟨rfl, rfl, rfl, rfl, fun s t hstep => ?_⟩
  rcases step_eq_next_cases hstep with ⟨hi, rfl⟩ | ⟨e, rest, hi, rfl⟩
  · simp [State.resetNext, hi]
  · cases e with
    | reset => simp [State.resetNext, hi]
    | resetDuring tr => simp [State.resetNext, hi]
    | command tr =>
      rw [afterCommand_PHASE_eq_final_iff, afterCommand_PHASE_eq_failed_iff]
      simp [State.resetNext, hi, ErrorInAccum]

/-! ### The response to a command that is no FINALIZE -/

/-- R165: the status of the answer to a transaction, from the phase and the length alone. -/
def answerStatus (tr : Transaction) (p : Phase) (l : BitVec 256) : Status :=
  match decode tr with
  | .error _ => .errIllegal
  | .ok i =>
    if p ≠ .accum then .errMisuse
    else
      match i with
      | .update d => if 2 ^ 256 ≤ l.toNat + 8 * d.length then .errCapacity else .ok
      | .finalize => .ok

/-- R28: the answer to anything but a FINALIZE is that status, with no data. -/
theorem afterCommand_response {tr : Transaction} (hd : decode tr ≠ .ok .finalize) (s : State) :
    (afterEvent (.command tr) s).response = some ⟨answerStatus tr s.PHASE s.LEN, []⟩ := by
  rcases afterCommand_cases tr s with ⟨⟨why, he⟩, h⟩ | ⟨⟨i, hi⟩, hp, h⟩ | ⟨hp, d, hu, hc, h⟩ | ⟨hp, d, hu, hc, h⟩ |
      ⟨-, hf, -⟩
  · simp [h, answerStatus, he, EngineError.status]
  · simp [h, answerStatus, hi, hp]
  · simp [-Nat.reducePow, h, answerStatus, hu, hp, hc, EngineError.status]
  · simp [-Nat.reducePow, h, answerStatus, hu, hp, Nat.not_le.2 hc]
  · exact absurd hf hd

/-- Settles O46: both states answer with the status that their common phase and length give. -/
theorem responseButToFinalizeDependsOnPhaseAndLength : Obligations.ResponseButToFinalizeDependsOnPhaseAndLength := by
  intro s t tr rest hs hts hP hL hd
  refine ⟨_, _, step_event hs, step_event (hts.trans hs), ?_⟩
  rw [afterCommand_response hd, afterCommand_response hd]
  simp only [withInputs_PHASE, withInputs_LEN, hP, hL]

end Sys2Proof.Machine
end

section
/-! PROOF. Block and matrix (spec/20_memory.md R42): a cell of `Mat(B)` and a byte of `Blk(M)`, and the two maps undo each
other because `8c + r` and `(k mod 8, k div 8)` do. -/

namespace Sys2Proof.Machine

theorem mat_get (b : Block) (r c : Fin 8) : (mat b)[r][c] = b[8 * c.val + r.val] := tabulate_get _ r c

theorem mat_get_nat (b : Block) {r c : Nat} (hr : r < 8) (hc : c < 8) :
    ((mat b)[r]'hr)[c]'hc = b[8 * c + r]'(by omega) := tabulate_get_nat _ hr hc

theorem blk_get_nat (m : ByteMatrix) {k : Nat} (hk : k < 64) : (blk m)[k]'hk = m[k % 8][k / 8] := by
  simp only [blk, Vector.getElem_ofFn]

theorem blk_mat (b : Block) : blk (mat b) = b := by
  apply Vector.ext
  intro k hk
  rw [blk_get_nat, mat_get_nat]
  simp only [Nat.div_add_mod]

theorem mat_blk (m : ByteMatrix) : mat (blk m) = m := by
  apply matrix_ext
  intro r c
  have hrow : (8 * c.val + r.val) % 8 = r.val := by omega
  have hcol : (8 * c.val + r.val) / 8 = c.val := by omega
  rw [mat_get, blk_get_nat]
  simp only [hrow, hcol, Fin.getElem_fin]

/-- Settles O11: the two formulas are the definitions, and `blk_mat` and `mat_blk` are the two compositions. -/
theorem blockMatrixMapping : Obligations.BlockMatrixMapping :=
  ⟨mat_get, fun m k => blk_get_nat m k.isLt, blk_mat, mat_blk⟩

end Sys2Proof.Machine
end

section
/-! PROOF. The blocks of PAD (spec/42_hash_engine.md R139, spec/20_memory.md R53): what the message tail, the marker, the
zeros and the length field leave in each byte of the block that is flushed. -/

namespace Sys2Proof.Machine

/-- The message tail below `k`, the marker at `k` and zeros up to `e`; the bytes from `e` on are those of `b`. -/
def markedBlock (b : Block) (k e : Nat) : Block :=
  memWrite (memWrite b k [Config.padMark]) (k + 1) (zeros (e - (k + 1)))

theorem memWrite_zeros_get (b : Block) (a n : Nat) {i : Nat} (hi : i < 64) :
    (memWrite b a (zeros n))[i] = if a ≤ i ∧ i < a + n then 0x00 else b[i] := by
  simp only [memWrite_get, zeros, List.getElem_replicate, List.length_replicate, dite_eq_ite]
  exact if_congr (by omega) rfl rfl

theorem memWrite_singleton_get (b : Block) (a : Nat) (x : Byte) {i : Nat} (hi : i < 64) :
    (memWrite b a [x])[i] = if i = a then x else b[i] := by
  simp only [memWrite_get, List.getElem_singleton, List.length_singleton, dite_eq_ite]
  exact if_congr (by omega) rfl rfl

theorem markedBlock_get (b : Block) (k : Nat) {e i : Nat} (hie : i < e) (hi : i < 64) :
    (markedBlock b k e)[i] = if i < k then b[i] else if i = k then 0x80 else 0x00 := by
  rw [markedBlock, memWrite_zeros_get, memWrite_singleton_get]
  rcases Nat.lt_trichotomy i k with h | rfl | h
  · rw [if_neg (by omega), if_neg (by omega), if_pos h]
  · rw [if_neg (by omega), if_pos rfl, if_neg (by omega), if_pos rfl]
  · rw [if_pos (by omega), if_neg (by omega), if_neg (by omega)]

/-- R53: the block with the length field in its last 32 bytes. -/
def withLength (b : Block) (l : BitVec 256) : Block := memWrite b 32 (be256 l).toList

theorem withLength_get_low (b : Block) (l : BitVec 256) {j : Nat} (hj : j < 32) :
    (withLength b l)[j]'(by omega) = b[j]'(by omega) := by
  rw [withLength, memWrite_get, dif_neg (by omega)]

theorem withLength_get_high (b : Block) (l : BitVec 256) {j : Nat} (hj : j < 32) :
    (withLength b l)[32 + j]'(by omega) = (be256 l)[j] := by
  rw [withLength, memWrite_get, dif_pos (by simpa using hj)]
  simp only [Nat.add_sub_cancel_left, Vector.getElem_toList]

/-- R139 with room for the length field: one block is flushed. -/
theorem pad_H_one (l : BitVec 256) {s : State} (h : s.BUFN.val ≤ 31) :
    (pad l s).H = compress s.H (mat (withLength (markedBlock s.BUF s.BUFN.val 32) l)) := by
  rw [pad_one l h, padTail_H, writeBuf_H, writeBuf_BUF, withLength, markedBlock]

/-- R139 without it: two blocks are flushed, the second with zeros written over what the first left in its lower half. -/
theorem pad_H_two (l : BitVec 256) {s : State} (h : 32 ≤ s.BUFN.val) :
    (pad l s).H = compress (compress s.H (mat (markedBlock s.BUF s.BUFN.val 64)))
      (mat (withLength (memWrite (markedBlock s.BUF s.BUFN.val 64) 0 (zeros 32)) l)) := by
  rw [pad_two l h, padTail_H, flush_H, flush_BUF, writeBuf_H, writeBuf_H, writeBuf_BUF, writeBuf_BUF, withLength, markedBlock]

theorem pad_frame (l : BitVec 256) (s : State) : (pad l s).BUFN = 0 ∧ (pad l s).LEN = s.LEN ∧ (pad l s).PHASE = s.PHASE ∧
    (pad l s).response = s.response ∧ (pad l s).inputs = s.inputs :=
  ⟨pad_BUFN l s, pad_LEN l s, pad_PHASE l s, pad_response l s, pad_inputs l s⟩

/-- Settles O20: `pad_H_one` and `pad_H_two` name the blocks, and their bytes are read off part by part; in the first case
no first block is flushed, and any stands for it. -/
theorem padFlushesTheLaidOutBlocks : Obligations.PadFlushesTheLaidOutBlocks := by
  intro l s
  rcases Nat.lt_or_ge 31 s.BUFN.val with hk | hk
  · refine ⟨markedBlock s.BUF s.BUFN.val 64, withLength (memWrite (markedBlock s.BUF s.BUFN.val 64) 0 (zeros 32)) l,
      fun h => absurd h (by omega), fun _ => ⟨pad_H_two l hk, fun j => markedBlock_get _ _ j.isLt j.isLt, fun j => ?_⟩,
      fun j => withLength_get_high _ l j.isLt, pad_frame l s⟩
    rw [withLength_get_low _ l j.isLt, memWrite_zeros_get, if_pos (by omega)]
  · refine ⟨s.BUF, withLength (markedBlock s.BUF s.BUFN.val 32) l, fun _ => ⟨pad_H_one l hk, fun j => ?_⟩,
      fun h => absurd h (by omega), fun j => withLength_get_high _ l j.isLt, pad_frame l s⟩
    rw [withLength_get_low _ l j.isLt, markedBlock_get _ _ j.isLt]

end Sys2Proof.Machine
end

section
/-! PROOF. Instances side by side (spec/20_memory.md R50, spec/60_exceptions.md R177): a run of the platform is, instance by
instance, a run of as many steps as the schedule gives it. -/

namespace Sys2Proof.Machine

/-- R50: a step of instance `k` takes one step off `k`'s own run, and none off the run of another. -/
theorem run_count_advance {N : Nat} (p : Platform N) {k : Fin N} (j : Fin N) (rest l : List (Fin N)) {s : State}
    (hs : step p.instances[k] = .next s) :
    core.run ((k :: l).count j) p.instances[j] = core.run (l.count j) (p.advance k rest s).instances[j] := by
  by_cases hkj : k = j
  · subst hkj
    rw [List.count_cons_self, advance_same]
    exact run_succ core _ hs
  · rw [List.count_cons_of_ne hkj, advance_other p hkj]

/-- Settles O47, by induction on the number of platform steps: each is a step of the instance at the head of the schedule,
or, the schedule being empty, of none. -/
theorem instancesRunAsIfAlone : Obligations.InstancesRunAsIfAlone := by
  intro N n
  induction n with
  | zero => exact fun p => ⟨p, rfl, rfl, fun _ => rfl⟩
  | succ n ih =>
    intro p
    cases hsched : p.schedule with
    | nil =>
      obtain ⟨p', hrun, hdrop, halone⟩ := ih p
      rw [hsched] at hdrop halone
      refine ⟨p', ?_, by simpa using hdrop, by simpa using halone⟩
      rw [run_succ (Platform.core N) n (platformStep_idle hsched), hrun]
    | cons k rest =>
      obtain ⟨s, hs⟩ := exists_step_eq_next p.instances[k]
      obtain ⟨p', hrun, hdrop, halone⟩ := ih (p.advance k rest s)
      rw [advance_schedule] at hdrop halone
      refine ⟨p', ?_, hdrop, fun j => ?_⟩
      · rw [run_succ (Platform.core N) n (platformStep_moves hsched hs), hrun]
      · rw [List.take_succ_cons, run_count_advance p j rest (rest.take n) hs, halone j]

end Sys2Proof.Machine
end

section
/-! PROOF. The command format (spec/30_encoding.md R61 to R68): decoder and encoder undo each other, on transactions and on
the bytes of the byte-wide port; the rows of the opcode table; and which transactions are illegal. -/

namespace Sys2Proof

/-! ### Decoder and encoder -/

theorem decode_encode {i : Instr} (hi : i.wellFormed = true) : decode (encode i) = .ok i := by
  cases i with
  | update d =>
    have hlen : (BitVec.ofNat 16 d.length).toNat = d.length :=
      Nat.mod_eq_of_lt (Nat.lt_succ_of_le ((wellFormed_update d).1 hi))
    refine (decode_ok_iff _ _).2 ⟨headerZero_append .., ?_, .inl ⟨headerOp_append .., rfl⟩⟩
    rw [encode, headerLen_append, hlen]
  | finalize => rfl

/-- On the byte-wide port the decoder reads a transaction's bytes as the transaction. -/
theorem decodeWire_toWire {t : Transaction} {i : Instr} (h : decode t = .ok i) : decodeWire t.toWire = .ok i := by
  simp only [decodeWire, ofWire_toWire, h]

/-- Settles O2: the decoder reads back the three fields that the encoder writes, and the port gives the header back. -/
theorem decodeInvertsEncode : Obligations.DecodeInvertsEncode :=
  fun _ hi => ⟨decode_encode hi, decodeWire_toWire (decode_encode hi)⟩

/-- A transaction is determined by the fields of its header and its payload. -/
theorem transaction_eq_of_fields {t : Transaction} {op z : BitVec 8} {l : BitVec 16} {p : List Byte}
    (hop : headerOp t.header = op) (hz : headerZero t.header = z) (hl : headerLen t.header = l) (hp : t.payload = p) :
    (⟨op ++ z ++ l, p⟩ : Transaction) = t := by
  rw [← hop, ← hz, ← hl, ← hp, header_fields]

/-- Settles O3: what `decode` requires of a transaction are the fields that `encode` writes. -/
theorem encodeInvertsDecode : Obligations.EncodeInvertsDecode := by
  intro t i h
  obtain ⟨hz, hlen, ⟨hop, rfl⟩ | ⟨hop, hl, rfl⟩⟩ := (decode_ok_iff t i).1 h
  · have hl : headerLen t.header = BitVec.ofNat 16 t.payload.length := by rw [hlen, BitVec.ofNat_toNat, BitVec.setWidth_eq]
    refine ⟨transaction_eq_of_fields hop hz hl rfl, (wellFormed_update _).2 ?_⟩
    rw [hlen]
    exact Nat.le_of_lt_succ (headerLen t.header).isLt
  · rw [hl] at hlen
    exact ⟨transaction_eq_of_fields hop hz hl (List.eq_nil_of_length_eq_zero hlen), wellFormed_finalize⟩

/-- Settles O1: each word is a small closed transaction, and `decode` is evaluated on it. -/
theorem specWordsDecode : Obligations.SpecWordsDecode := by
  refine ⟨?_, ?_, ?_, ?_, ?_, ?_, ?_, ?_⟩ <;> decide

/-! ### The opcode table -/

/-- A header, masked by three fields and matched with three fields, is matched field by field. -/
theorem header_and_eq_iff (h : BitVec 32) (mop mz op z : BitVec 8) (ml l : BitVec 16) :
    h &&& (mop ++ mz ++ ml) = op ++ z ++ l ↔
      headerOp h &&& mop = op ∧ headerZero h &&& mz = z ∧ headerLen h &&& ml = l := by
  have hand : h &&& (mop ++ mz ++ ml) = (headerOp h &&& mop) ++ (headerZero h &&& mz) ++ (headerLen h &&& ml) := by
    rw [← BitVec.and_append, ← BitVec.and_append, header_fields]
  rw [hand]
  refine ⟨fun heq => ⟨?_, ?_, ?_⟩, fun ⟨hop, hz, hl⟩ => by rw [hop, hz, hl]⟩
  · simpa only [headerOp_append] using congrArg headerOp heq
  · simpa only [headerZero_append] using congrArg headerZero heq
  · simpa only [headerLen_append] using congrArg headerLen heq

theorem updateRow_selects_iff (h : BitVec 32) : updateRow.selects h = true ↔ headerOp h = 1 ∧ headerZero h = 0 := by
  have hrow := header_and_eq_iff h (.allOnes 8) (.allOnes 8) 1 0 0 0
  simp only [BitVec.and_allOnes, BitVec.and_zero, BitVec.ofNat_eq_ofNat, and_true] at hrow
  exact decide_eq_true_iff.trans hrow

theorem finalizeRow_selects_iff (h : BitVec 32) :
    finalizeRow.selects h = true ↔ headerOp h = 2 ∧ headerZero h = 0 ∧ headerLen h = 0 := by
  have hrow := header_and_eq_iff h (.allOnes 8) (.allOnes 8) 2 0 (.allOnes 16) 0
  simp only [BitVec.and_allOnes] at hrow
  exact decide_eq_true_iff.trans hrow

theorem decode_eq_update_iff (t : Transaction) (d : List Byte) : decode t = .ok (.update d) ↔
    updateRow.selects t.header = true ∧ t.payload.length = (headerLen t.header).toNat ∧ d = t.payload := by
  rw [decode_ok_iff, updateRow_selects_iff]
  simp only [Instr.update.injEq, reduceCtorEq, and_false, or_false]
  tauto

theorem decode_eq_finalize_iff (t : Transaction) :
    decode t = .ok .finalize ↔ finalizeRow.selects t.header = true ∧ t.payload = [] := by
  rw [decode_ok_iff, finalizeRow_selects_iff, ← List.length_eq_zero_iff]
  simp only [reduceCtorEq, and_false, false_or, and_true]
  refine ⟨fun ⟨hz, hlen, hop, hl⟩ => ⟨⟨hop, hz, hl⟩, ?_⟩, fun ⟨⟨hop, hz, hl⟩, hp⟩ => ⟨hz, ?_, hop, hl⟩⟩
  · rw [hlen, hl]
    rfl
  · rw [hp, hl]
    rfl

/-- The two rows ask for different operation codes. -/
theorem not_both_rows_select (h : BitVec 32) : ¬ (updateRow.selects h = true ∧ finalizeRow.selects h = true) := by
  rw [updateRow_selects_iff, finalizeRow_selects_iff]
  rintro ⟨⟨hop, -⟩, hop', -⟩
  rw [hop] at hop'
  exact absurd hop' (by decide)

/-- Settles O4: a transaction that decodes to a command is selected by that command's row. -/
theorem tableRowsSelectCommands : Obligations.TableRowsSelectCommands := by
  intro h p
  refine ⟨decode_eq_update_iff ⟨h, p⟩, decode_eq_finalize_iff ⟨h, p⟩, not_both_rows_select h, fun hu hf => ?_⟩
  cases hd : decode ⟨h, p⟩ with
  | error why => exact ⟨why, rfl⟩
  | ok i =>
    cases i with
    | update d => exact absurd ((decode_eq_update_iff _ _).1 hd).1 (Bool.eq_false_iff.1 hu)
    | finalize => exact absurd ((decode_eq_finalize_iff _).1 hd).1 (Bool.eq_false_iff.1 hf)

/-! ### The byte-wide port -/

/-- R61: the field `len` is the low half of the header, so its bytes are the header's last two. -/
theorem extractLsb'_headerLen (h : BitVec 32) {k : Nat} (hk : k + 8 ≤ 16) :
    (headerLen h).extractLsb' k 8 = h.extractLsb' k 8 := by
  apply BitVec.eq_of_getLsbD_eq
  intro i hi
  simp only [headerLen, BitVec.getLsbD_extractLsb', Nat.zero_add, decide_eq_true (show k + i < 16 by omega), Bool.true_and]

/-- R68: the bytes of a transaction with a payload as long as `len` says are cut off whole. -/
theorem takeFirst_toWire_append {t : Transaction} (h : t.payload.length = (headerLen t.header).toNat) (rest : List Byte) :
    Transaction.takeFirst (t.toWire ++ rest) = some (t, rest) := by
  simp [Transaction.takeFirst, ofWire_toWire_append, ← h]

/-- Settles O5: the first two bytes are the fields `op` and `zero`, the next two those of `len`, and the cut is the lemma above. -/
theorem wireOrderAndLength : Obligations.WireOrderAndLength := by
  intro t rest
  refine ⟨?_, fun h => ⟨takeFirst_toWire_append h rest, ?_⟩⟩
  · rw [extractLsb'_headerLen _ (by decide), extractLsb'_headerLen _ (by decide)]
    rfl
  · rw [← h, Transaction.toWire, List.length_append]
    rfl

/-! ### Illegal transactions -/

/-- R67: what a transaction must be to carry a command. -/
theorem exists_decode_ok_iff (t : Transaction) : (∃ i, decode t = .ok i) ↔
    headerZero t.header = 0 ∧ t.payload.length = (headerLen t.header).toNat ∧
      (headerOp t.header = 1 ∨ (headerOp t.header = 2 ∧ headerLen t.header = 0)) := by
  simp only [decode_ok_iff]
  constructor
  · rintro ⟨i, hz, hlen, ⟨hop, -⟩ | ⟨hop, hl, -⟩⟩
    · exact ⟨hz, hlen, .inl hop⟩
    · exact ⟨hz, hlen, .inr ⟨hop, hl⟩⟩
  · rintro ⟨hz, hlen, hop | ⟨hop, hl⟩⟩
    · exact ⟨_, hz, hlen, .inl ⟨hop, rfl⟩⟩
    · exact ⟨_, hz, hlen, .inr ⟨hop, hl, rfl⟩⟩

theorem exists_decode_error_iff_not_ok (t : Transaction) :
    (∃ why, decode t = .error why) ↔ ¬ ∃ i, decode t = .ok i := by
  cases decode t <;> simp

/-- R65 against R67: (a) to (d) are what a transaction that carries no command fails in. -/
theorem exists_decode_error_iff (t : Transaction) : (∃ why, decode t = .error why) ↔ Machine.IllegalTransaction t := by
  rw [exists_decode_error_iff_not_ok, exists_decode_ok_iff, Machine.IllegalTransaction]
  have hops : headerOp t.header = 2 → headerOp t.header ≠ 1 := fun h => by rw [h]; decide
  tauto

end Sys2Proof
end

section
/-! PROOF. The one response to a transaction (spec/30_encoding.md R60, R64): to an illegal one (R65, spec/60_exceptions.md
R164), and to any, with its data and its bytes on the byte-wide port (R68). -/

namespace Sys2Proof.Machine

theorem raiseError_sameRegisters (e : EngineError) {s : State} (h : s.PHASE ≠ .accum) :
    SameRegisters s (raiseError e s) := by
  rw [raiseError_ended e h]
  exact respond_sameRegisters _ _ s

theorem sameRegisters_trans {s t u : State} (hst : SameRegisters s t) (htu : SameRegisters t u) : SameRegisters s u :=
  ⟨htu.H.trans hst.H, htu.BUF.trans hst.BUF, htu.BUFN.trans hst.BUFN, htu.LEN.trans hst.LEN, htu.PHASE.trans hst.PHASE⟩

theorem afterEvent_illegal {tr : Transaction} {why : Illegal} (h : decode tr = .error why) (s : State) :
    afterEvent (.command tr) s = raiseError .illegal s := by
  simp only [afterEvent, h]

/-- Settles O6: an illegal transaction is one that decodes to no command, and then the step enters the error Illegal. -/
theorem illegalTransactionKills : Obligations.IllegalTransactionKills := by
  intro s t rest hs
  refine ⟨exists_decode_error_iff t, fun hill => ?_⟩
  obtain ⟨why, hd⟩ := (exists_decode_error_iff t).2 hill
  refine ⟨_, step_event hs, ?_⟩
  rw [afterEvent_illegal hd]
  refine ⟨raiseError_response .illegal _, raiseError_inputs .illegal _, fun hp => ⟨raiseError_zeroised .illegal hp, ?_⟩,
    fun hp => sameRegisters_trans (withInputs_sameRegisters rest s) (raiseError_sameRegisters .illegal hp)⟩
  rw [raiseError_PHASE]
  exact if_pos hp

/-! ### One response to every command -/

theorem emit_length (s : State) : (emit s).length = 64 := Vector.length_toList

theorem afterCommand_inputs (tr : Transaction) (s : State) : (afterEvent (.command tr) s).inputs = s.inputs := by
  rcases afterCommand_cases tr s with ⟨-, h⟩ | ⟨-, -, h⟩ | ⟨-, -, -, -, h⟩ | ⟨-, d, -, -, h⟩ | ⟨-, -, h⟩ <;> rw [h]
  · exact raiseError_inputs .illegal s
  · exact respond_inputs _ _ s
  · exact raiseError_inputs .capacity s
  · rw [respond_inputs, absorbAll_inputs]
  · exact finalizeBody_inputs s

/-- R60: the response is that of a FINALIZE that succeeded, with 64 bytes, or it has no data. -/
theorem afterCommand_response_cases (tr : Transaction) (s : State) :
    (decode tr = .ok .finalize ∧ ∃ data, data.length = 64 ∧ (afterEvent (.command tr) s).response = some ⟨.ok, data⟩) ∨
    ∃ st, ¬ (decode tr = .ok .finalize ∧ st = .ok) ∧ (afterEvent (.command tr) s).response = some ⟨st, []⟩ := by
  by_cases hd : decode tr = .ok .finalize
  · by_cases hp : s.PHASE = .accum
    · refine .inl ⟨hd, emit (pad s.LEN s), emit_length _, ?_⟩
      simp only [afterEvent, hd, whenAccepting_accum _ hp, finalizeBody_response]
    · refine .inr ⟨.errMisuse, by simp, ?_⟩
      simp only [afterEvent, hd, whenAccepting_ended _ hp, respond_response]
  · exact .inr ⟨_, fun h => hd h.1, afterCommand_response hd s⟩

/-- Settles O32: the two cases of the response have 64 data bytes and none. -/
theorem oneResponsePerCommand : Obligations.OneResponsePerCommand := by
  intro s tr rest hs
  have hinputs := afterCommand_inputs tr (withInputs rest s)
  rcases afterCommand_response_cases tr (withInputs rest s) with ⟨hd, data, hlen, hr⟩ | ⟨st, hst, hr⟩
  · exact ⟨_, ⟨.ok, data⟩, step_event hs, hinputs, hr, fun _ => hlen, fun h => absurd ⟨hd, rfl⟩ h⟩
  · exact ⟨_, ⟨st, []⟩, step_event hs, hinputs, hr, fun h => absurd h hst, fun _ => rfl⟩

theorem toWire_length (r : Response) : r.toWire.length = 1 + r.data.length := Nat.add_comm _ _

/-- Settles O33: the codes are as written, and the bytes are the code and the data that O32 counts. -/
theorem responseWireFormat : Obligations.ResponseWireFormat := by
  refine ⟨rfl, rfl, rfl, rfl, fun s tr rest hs => ?_⟩
  obtain ⟨t, r, hstep, -, hr, hdigest, hnone⟩ := oneResponsePerCommand s tr rest hs
  refine ⟨t, r, hstep, hr, rfl, rfl, fun h => ?_, fun h => ?_⟩
  · rw [toWire_length, hdigest h]
  · rw [toWire_length, hnone h, List.length_nil]

end Sys2Proof.Machine
end

section
/-! PROOF. Long payloads in a program (spec/30_encoding.md R70): an UPDATE of more than 65535 bytes is as many
commands as are needed, all full but the last. -/

namespace Sys2Proof.Machine

theorem splitPayload_of_le (fuel : Nat) {d : List Byte} (h : d.length ≤ Config.lmax) : splitPayload fuel d = [d] := by
  cases fuel with
  | zero => rfl
  | succ fuel => rw [splitPayload, if_pos h]

theorem splitPayload_of_gt (fuel : Nat) {d : List Byte} (h : Config.lmax < d.length) :
    splitPayload (fuel + 1) d = d.take Config.lmax :: splitPayload fuel (d.drop Config.lmax) := by
  rw [splitPayload, if_neg (Nat.not_le.2 h)]

theorem splitPayload_ne_nil (fuel : Nat) (d : List Byte) : splitPayload fuel d ≠ [] := by
  cases fuel with
  | zero => exact List.cons_ne_nil _ _
  | succ fuel =>
    rw [splitPayload]
    split
    · exact List.cons_ne_nil _ _
    · exact List.cons_ne_nil _ _

/-- R70: the payloads `cs` are the bytes `d` in order, as many as are needed, and full but for the last. -/
structure SplitsInto (d : List Byte) (cs : List (List Byte)) : Prop where
  flatten : cs.flatten = d
  count : cs.length = max 1 ((d.length + 65534) / 65535)
  full : ∀ c ∈ cs.dropLast, c.length = 65535
  fits : ∀ c ∈ cs, c.length ≤ 65535

theorem splitsInto_singleton {d : List Byte} (h : d.length ≤ 65535) : SplitsInto d [d] where
  flatten := List.flatten_singleton
  count := by rw [List.length_singleton]; omega
  full := fun _ hc => absurd hc List.not_mem_nil
  fits := fun c hc => by rwa [List.mem_singleton.1 hc]

/-- A full payload before the payloads of the bytes that follow it. -/
theorem splitsInto_cons {c d : List Byte} {cs : List (List Byte)} (hc : c.length = 65535) (hd : d ≠ []) (hcs : cs ≠ [])
    (h : SplitsInto d cs) : SplitsInto (c ++ d) (c :: cs) where
  flatten := by rw [List.flatten_cons, h.flatten]
  count := by
    have hpos := List.length_pos_iff.2 hd
    rw [List.length_cons, h.count, List.length_append, hc]
    omega
  full := by
    rw [List.dropLast_cons_of_ne_nil hcs]
    exact List.forall_mem_cons.2 ⟨hc, h.full⟩
  fits := List.forall_mem_cons.2 ⟨hc.le, h.fits⟩

/-- With fuel for every full payload, the split is complete. -/
theorem splitPayload_splitsInto (fuel : Nat) {d : List Byte} (h : d.length ≤ 65535 * (fuel + 1)) :
    SplitsInto d (splitPayload fuel d) := by
  induction fuel generalizing d with
  | zero => exact splitsInto_singleton (by omega)
  | succ fuel ih =>
    rcases Nat.lt_or_ge Config.lmax d.length with hlong | hshort
    · have hlmax : 65535 < d.length := hlong
      have hdrop : (d.drop Config.lmax).length = d.length - 65535 := List.length_drop
      have hne : d.drop Config.lmax ≠ [] := List.length_pos_iff.1 (by omega)
      rw [splitPayload_of_gt fuel hlong]
      simpa only [List.take_append_drop] using
        splitsInto_cons (List.length_take_of_le hlong.le) hne (splitPayload_ne_nil fuel _) (ih (by omega))
    · rw [splitPayload_of_le (fuel + 1) hshort]
      exact splitsInto_singleton hshort

theorem updatePayloads_splitsInto (d : List Byte) : SplitsInto d (updatePayloads d) :=
  splitPayload_splitsInto _ (by rw [show Config.lmax = 65535 from rfl]; omega)

/-- Settles O48: the fuel that `updatePayloads` gives is one for every full payload. -/
theorem longUpdateSplits : Obligations.LongUpdateSplits := by
  intro d
  obtain ⟨hflatten, hcount, hfull, hfits⟩ := updatePayloads_splitsInto d
  exact ⟨hflatten, hcount, hfull, hfits⟩

end Sys2Proof.Machine
end

section
/-! PROOF. PAD in closed form (spec/42_hash_engine.md R139, R140, R142): the chaining value after PAD is the one after
ABSORB of the padding suffix byte by byte, so a FINALIZE emits the digest of the message absorbed. -/

namespace Sys2Proof.Machine

/-! ### ABSORB of bytes that fit into the block -/

theorem memWrite_nil (b : Block) (a : Nat) : memWrite b a [] = b := by
  apply Vector.ext
  intro i hi
  rw [memWrite_get, dif_neg (by simp)]

theorem memWrite_singleton (b : Block) {a : Nat} (ha : a < 64) (x : Byte) : memWrite b a [x] = b.set a x := by
  apply Vector.ext
  intro i hi
  rw [memWrite_singleton_get, Vector.getElem_set]
  exact if_congr eq_comm rfl rfl

/-- Writing two byte sequences one after the other. -/
theorem memWrite_append (b : Block) (a : Nat) (u v : List Byte) :
    memWrite b a (u ++ v) = memWrite (memWrite b a u) (a + u.length) v := by
  apply Vector.ext
  intro i hi
  simp only [memWrite_get, List.length_append]
  by_cases hu : a ≤ i ∧ i - a < u.length
  · rw [dif_pos (by omega), dif_neg (by omega), dif_pos hu, List.getElem_append_left]
  · by_cases hv : a + u.length ≤ i ∧ i - (a + u.length) < v.length
    · rw [dif_pos (by omega), dif_pos hv, List.getElem_append_right (by omega)]
      simp only [Nat.sub_sub]
    · rw [dif_neg (by omega), dif_neg hv, dif_neg hu]

/-- R135: bytes that fit into the block are stored one after the other, the last of the block too. -/
theorem absorbAll_BUF_of_le {v : List Byte} {s : State} (h : s.BUFN.val + v.length ≤ 64) :
    (absorbAll v s).BUF = memWrite s.BUF s.BUFN.val v := by
  induction v using List.reverseRecOn with
  | nil => rw [absorbAll_nil, memWrite_nil]
  | append_singleton v x ih =>
    rw [List.length_append, List.length_singleton] at h
    rw [absorbAll_append, absorbAll_cons, absorbAll_nil, absorb_BUF, memWrite_append, memWrite_singleton _ (by omega)]
    simp only [absorbAll_BUFN, Nat.mod_eq_of_lt (show s.BUFN.val + v.length < 64 by omega), ih (by omega)]

/-- R135: no block is flushed while there is room. -/
theorem absorbAll_H_of_lt {v : List Byte} {s : State} (h : s.BUFN.val + v.length < 64) : (absorbAll v s).H = s.H := by
  induction v using List.reverseRecOn with
  | nil => rfl
  | append_singleton v x ih =>
    rw [List.length_append, List.length_singleton] at h
    rw [absorbAll_append, absorbAll_cons, absorbAll_nil, absorb_H, if_neg, ih (by omega)]
    rw [absorbAll_BUFN]
    omega

/-- R135, R136: the byte that completes the block flushes it. -/
theorem absorbAll_H_of_eq {v : List Byte} {s : State} (h : s.BUFN.val + v.length = 64) :
    (absorbAll v s).H = compress s.H (mat (memWrite s.BUF s.BUFN.val v)) := by
  rw [← absorbAll_BUF_of_le h.le]
  induction v using List.reverseRecOn with
  | nil => exact absurd h s.BUFN.isLt.ne
  | append_singleton v x _ =>
    rw [List.length_append, List.length_singleton] at h
    have hlast : (absorbAll v s).BUFN.val = 63 := by rw [absorbAll_BUFN]; omega
    rw [absorbAll_append, absorbAll_cons, absorbAll_nil, absorb_H, if_pos hlast, absorb_BUF, absorbAll_H_of_lt (by omega)]

/-! ### PAD is ABSORB of the padding suffix -/

theorem padSuffix_mod (n : Nat) (l : BitVec 256) : padSuffix (n % 64) l = padSuffix n l := by
  rw [padSuffix, padSuffix, padZeros_eq, padZeros_eq, Nat.mod_mod]

/-- The marker, the zeros and the length field, written one after the other. -/
theorem withLength_markedBlock (b : Block) (l : BitVec 256) {k : Nat} (hk : k ≤ 31) :
    withLength (markedBlock b k 32) l = memWrite b k (padSuffix k l) := by
  have hz : padZeros k = 32 - (k + 1) := by rw [padZeros_eq]; omega
  rw [padSuffix, memWrite_append, memWrite_append, hz]
  simp only [withLength, markedBlock, zeros, List.length_append, List.length_singleton, List.length_replicate]
  rw [show k + (1 + (32 - (k + 1))) = 32 by omega]

/-- The rest of a block that has no room for the length field: the marker and zeros. -/
def markAndFill (k : Nat) : List Byte := [Config.padMark] ++ zeros (64 - (k + 1))

theorem markAndFill_length {k : Nat} (hk : k < 64) : (markAndFill k).length = 64 - k := by
  rw [markAndFill, List.length_append, List.length_singleton, zeros_length]
  omega

theorem markedBlock_eq_memWrite (b : Block) (k : Nat) : markedBlock b k 64 = memWrite b k (markAndFill k) := by
  rw [markAndFill, memWrite_append, List.length_singleton, markedBlock]

/-- R139: the padding suffix then reaches into a second block, of zeros up to the length field. -/
theorem padSuffix_eq_markAndFill_append (l : BitVec 256) {k : Nat} (hk : 32 ≤ k) (hk' : k < 64) :
    padSuffix k l = markAndFill k ++ (zeros 32 ++ (be256 l).toList) := by
  have hz : padZeros k = (64 - (k + 1)) + 32 := by rw [padZeros_eq]; omega
  rw [padSuffix, hz, List.replicate_add, markAndFill, zeros, zeros]
  simp only [List.append_assoc]

theorem withLength_zeros (b : Block) (l : BitVec 256) :
    withLength (memWrite b 0 (zeros 32)) l = memWrite b 0 (zeros 32 ++ (be256 l).toList) := by
  rw [memWrite_append, zeros_length, withLength]

/-- R139, R140: PAD leaves the chaining value that ABSORB of the padding suffix leaves. -/
theorem pad_H_eq_absorbAll_H (l : BitVec 256) (s : State) :
    (pad l s).H = (absorbAll (padSuffix s.BUFN.val l) s).H := by
  have hN := s.BUFN.isLt
  rcases Nat.lt_or_ge 31 s.BUFN.val with hk | hk
  · have hfirst : s.BUFN.val + (markAndFill s.BUFN.val).length = 64 := by rw [markAndFill_length hN]; omega
    have hempty : (absorbAll (markAndFill s.BUFN.val) s).BUFN.val = 0 := by rw [absorbAll_BUFN, hfirst]
    have hsecond : (zeros 32 ++ (be256 l).toList).length = 64 := by
      rw [List.length_append, zeros_length, Vector.length_toList]
    rw [pad_H_two l hk, padSuffix_eq_markAndFill_append l hk hN, absorbAll_append, absorbAll_H_of_eq (by omega), hempty,
      absorbAll_BUF_of_le hfirst.le, absorbAll_H_of_eq hfirst, withLength_zeros, markedBlock_eq_memWrite]
  · have hlen := padSuffix_length s.BUFN.val l
    rw [pad_H_one l hk, withLength_markedBlock _ l hk, absorbAll_H_of_eq (by omega)]

/-- R134, R142: PAD continues the fold over the message to the end of its padding. -/
theorem pad_H_of_absorbed {h : ByteMatrix} {m : List Byte} {s : State} (l : BitVec 256) (hs : Absorbed h m s) :
    (pad l s).H = chain h (m ++ padSuffix m.length l) ((m ++ padSuffix m.length l).length / 64) := by
  rw [pad_H_eq_absorbAll_H, hs.bufn, padSuffix_mod]
  exact (absorbAll_absorbed _ hs).chaining

/-- R142: what FINALIZE emits is the digest of the message absorbed since reset. -/
theorem emit_pad_of_holds {m : List Byte} {s : State} (hs : Holds m s) : emit (pad s.LEN s) = digest m := by
  have hlen : s.LEN = BitVec.ofNat 256 (8 * m.length) := by rw [← hs.len, BitVec.ofNat_toNat, BitVec.setWidth_eq]
  rw [emit, pad_H_of_absorbed s.LEN hs.absorbed, hlen, digest, padded]

end Sys2Proof.Machine
end

section
/-! PROOF. Runs of programs (spec/30_encoding.md R69, R70): a message sent from reset in any payloads is answered
OK, and the FINALIZE after it with the digest (spec/42_hash_engine.md R142). -/

namespace Sys2Proof.Machine

/-! ### One event of a program -/

/-- A command puts its response at the front of the transcript. -/
theorem transcript_command {tr : Transaction} {s s' : State} {rest : List HostEvent} {r : Response} (n : Nat)
    (hs : s.inputs = .command tr :: rest) (hs' : afterEvent (.command tr) (withInputs rest s) = s')
    (hr : s'.response = some r) : transcript (n + 1) s = r :: transcript n s' := by
  have hcommand : s.commandNext = true := by rw [State.commandNext, hs]
  rw [transcript_succ n (step_event hs), hs', hcommand, if_pos rfl, hr, Option.toList_some, List.singleton_append]

/-- R132: an UPDATE with room for its bits. -/
theorem transcript_issue_update {d : List Byte} {s : State} {rest : List HostEvent} (n : Nat) (hd : d.length ≤ 65535)
    (hp : s.PHASE = .accum) (hfit : s.LEN.toNat + 8 * d.length < 2 ^ 256) (hs : s.inputs = issue (.update d) :: rest) :
    transcript (n + 1) s = ⟨.ok, []⟩ :: transcript n (respond .ok [] (absorbAll d (withInputs rest s))) := by
  refine transcript_command n hs ?_ (respond_response _ _ _)
  simp only [afterEvent, decode_encode ((wellFormed_update d).2 hd)]
  have hp' : (withInputs rest s).PHASE = .accum := hp
  rw [whenAccepting_accum _ hp', updateBody_fits (by rwa [withInputs_LEN])]

/-- R138, R142: a FINALIZE after the message `m`. -/
theorem transcript_issue_finalize {m : List Byte} {s : State} {rest : List HostEvent} (n : Nat) (hp : s.PHASE = .accum)
    (hm : Holds m s) (hs : s.inputs = issue .finalize :: rest) :
    transcript (n + 1) s = ⟨.ok, digest m⟩ :: transcript n (finalizeBody (withInputs rest s)) := by
  refine transcript_command n hs ?_ ?_
  · simp only [afterEvent, decode_encode wellFormed_finalize]
    exact whenAccepting_accum _ hp
  · rw [finalizeBody_response, emit_pad_of_holds (holds_of_sameRegisters (withInputs_sameRegisters rest s) hm)]

theorem transcript_reset {s : State} {rest : List HostEvent} (n : Nat) (hs : s.inputs = .reset :: rest) :
    transcript (n + 1) s = transcript n (resetEngine (withInputs rest s)) := by
  have hcommand : s.commandNext = false := by rw [State.commandNext, hs]
  rw [transcript_succ n (step_event hs), hcommand, afterEvent_reset]
  rfl

/-! ### A message and its FINALIZE -/

/-- R70: the events that send the payloads `cs`, one UPDATE each, and then FINALIZE. -/
def sendAndFinalize (cs : List (List Byte)) : List HostEvent := (cs.map fun c => issue (.update c)) ++ [issue .finalize]

theorem sendAndFinalize_cons (c : List Byte) (cs : List (List Byte)) :
    sendAndFinalize (c :: cs) = issue (.update c) :: sendAndFinalize cs := rfl

/-- R142, continued from the message `m` absorbed so far, by induction on the payloads. -/
theorem transcript_sendAndFinalize {cs : List (List Byte)} (hcs : ∀ c ∈ cs, c.length ≤ 65535) {m : List Byte} {s : State}
    (hp : s.PHASE = .accum) (hm : Holds m s) (hfit : 8 * (m ++ cs.flatten).length < 2 ^ 256)
    (hs : s.inputs = sendAndFinalize cs) :
    transcript (cs.length + 1) s = List.replicate cs.length ⟨.ok, []⟩ ++ [⟨.ok, digest (m ++ cs.flatten)⟩] := by
  induction cs generalizing m s with
  | nil =>
    rw [List.length_nil, transcript_issue_finalize 0 hp hm hs, List.flatten_nil, List.append_nil]
    rfl
  | cons c cs ih =>
    obtain ⟨hc, hcs'⟩ := List.forall_mem_cons.1 hcs
    rw [List.flatten_cons, ← List.append_assoc] at hfit ⊢
    have hroom : s.LEN.toNat + 8 * c.length < 2 ^ 256 := by
      simp only [List.length_append] at hfit
      rw [hm.len]
      omega
    have hm' : Holds m (withInputs (sendAndFinalize cs) s) := holds_of_sameRegisters (withInputs_sameRegisters _ s) hm
    have hmc := holds_of_sameRegisters (respond_sameRegisters .ok [] _) (absorbAll_holds c (by rwa [withInputs_LEN]) hm')
    rw [List.length_cons, transcript_issue_update _ hc hp hroom (hs.trans (sendAndFinalize_cons c cs)),
      ih hcs' (by rw [respond_PHASE, absorbAll_PHASE, withInputs_PHASE, hp]) hmc hfit
        (by rw [respond_inputs, absorbAll_inputs, withInputs_inputs])]
    rfl

/-- R142 from reset in any state. -/
theorem transcript_reset_sendAndFinalize {cs : List (List Byte)} (hcs : ∀ c ∈ cs, c.length ≤ 65535)
    (hfit : cs.flatten.length < 2 ^ 253) {s : State} (hs : s.inputs = .reset :: sendAndFinalize cs) :
    transcript (cs.length + 2) s = List.replicate cs.length ⟨.ok, []⟩ ++ [⟨.ok, digest cs.flatten⟩] := by
  have hempty := holds_nil_of_zeroised (resetEngine_zeroised (withInputs (sendAndFinalize cs) s))
  rw [transcript_reset (cs.length + 1) hs, transcript_sendAndFinalize hcs rfl hempty (by simp only [List.nil_append]; omega) rfl,
    List.nil_append]

theorem assemble_reset_hash (a : AsmOperand) :
    assemble [.reset, .hash a] = .reset :: sendAndFinalize (updatePayloads a.value) := by
  simp [assemble, AsmLine.assemble, sendAndFinalize]

/-- Settles O49: `HASH` sends the payloads that its operand splits into, and these are the operand in order. -/
theorem hashProgramAnswersTheDigest : Obligations.HashProgramAnswersTheDigest := by
  intro s a hlen hs
  have hsplit := updatePayloads_splitsInto a.value
  rw [assemble_reset_hash] at hs
  have hcount : s.inputs.length = (updatePayloads a.value).length + 2 := by simp [hs, sendAndFinalize]
  rw [hcount, transcript_reset_sendAndFinalize hsplit.fits (by rwa [hsplit.flatten]) hs, hsplit.flatten]

end Sys2Proof.Machine
end

section
/-! PROOF. The field of spec/40_constant_tables.md R84 and R85: a byte is a polynomial over GF(2) of degree below 8, hence
one element of the quotient by the polynomial `0x11D`, and `⊗` and `^^^` are that ring's product and sum. -/

namespace Sys2Proof.Machine

open Polynomial

/-! ### A byte as a polynomial -/

/-- R84: bit `i` of the byte is the coefficient of `x^i`. -/
noncomputable def bytePoly (a : Byte) : (ZMod 2)[X] := ∑ i : Fin 8, if a.getLsbD i.val then X ^ i.val else 0

/-- R84: `0x11D`. -/
noncomputable def fieldPoly : (ZMod 2)[X] := X ^ 8 + X ^ 4 + X ^ 3 + X ^ 2 + 1

theorem bytePoly_coeff (a : Byte) (i : Fin 8) : (bytePoly a).coeff i.val = if a.getLsbD i.val then 1 else 0 := by
  have term (j : Fin 8) : (if a.getLsbD j.val then X ^ j.val else 0 : (ZMod 2)[X]).coeff i.val =
      if i = j then if a.getLsbD j.val then 1 else 0 else 0 := by
    split <;> simp [coeff_X_pow, Fin.ext_iff]
  simp only [bytePoly, finsetSum_coeff, term, Finset.sum_ite_eq, Finset.mem_univ, if_true]

theorem bytePoly_injective : Function.Injective bytePoly := by
  intro a b h
  apply BitVec.eq_of_getLsbD_eq
  intro i hi
  have bit : Function.Injective fun x : Bool => if x then (1 : ZMod 2) else 0 := by decide
  have hcoeff := congrArg (coeff · i) h
  simp only [bytePoly_coeff a ⟨i, hi⟩, bytePoly_coeff b ⟨i, hi⟩] at hcoeff
  exact bit hcoeff

theorem bytePoly_degree_lt (a : Byte) : (bytePoly a).degree < 8 := by
  refine (degree_sum_le _ _).trans_lt ((Finset.sup_lt_iff (by decide)).2 fun i _ => ?_)
  split
  · rw [degree_X_pow]
    exact_mod_cast i.isLt
  · rw [degree_zero]
    decide

theorem bytePoly_zero : bytePoly 0x00 = 0 := by simp [bytePoly]

theorem bytePoly_one : bytePoly 0x01 = 1 := by simp [bytePoly]

/-- Addition modulo 2 is exclusive or, coefficient by coefficient. -/
theorem bytePoly_xor (a b : Byte) : bytePoly (a ^^^ b) = bytePoly a + bytePoly b := by
  simp only [bytePoly, ← Finset.sum_add_distrib, BitVec.getLsbD_xor]
  refine Finset.sum_congr rfl fun i _ => ?_
  cases a.getLsbD i.val <;> cases b.getLsbD i.val <;> simp [CharTwo.add_self_eq_zero]

theorem bytePoly_shiftLeft_one (a : Byte) :
    bytePoly (a <<< 1) + (if a.getLsbD 7 then X ^ 8 else 0) = X * bytePoly a := by
  simp [bytePoly, Fin.sum_univ_eight, mul_add, ← pow_succ', ← sq]

theorem X_pow_eight_add_bytePoly : X ^ 8 + bytePoly 0x1D = fieldPoly := by
  simp [bytePoly, fieldPoly, Fin.sum_univ_eight]
  abel

/-- R85: the bit shifted out is folded back by subtracting the field's polynomial once. -/
theorem bytePoly_xtime (a : Byte) :
    bytePoly (xtime a) = X * bytePoly a + if a.getLsbD 7 then fieldPoly else 0 := by
  rw [← bytePoly_shiftLeft_one, xtime]
  cases a.getLsbD 7 with
  | false => simp
  | true =>
    simp only [if_true, bytePoly_xor, ← X_pow_eight_add_bytePoly]
    linear_combination - CharTwo.add_self_eq_zero (X ^ 8 : (ZMod 2)[X])

theorem fieldPoly_natDegree : fieldPoly.natDegree = 8 := by
  unfold fieldPoly
  compute_degree!

theorem fieldPoly_monic : fieldPoly.Monic := by
  unfold fieldPoly
  monicity!

/-! ### A byte as an element of the quotient ring -/

/-- R84, R85: the byte in the polynomials over GF(2) modulo `0x11D`. -/
noncomputable def fieldElem (a : Byte) : AdjoinRoot fieldPoly := AdjoinRoot.mk fieldPoly (bytePoly a)

/-- A byte's polynomial is already reduced. -/
theorem bytePoly_modByMonic (a : Byte) : bytePoly a %ₘ fieldPoly = bytePoly a := by
  rw [modByMonic_eq_self_iff fieldPoly_monic, degree_eq_natDegree fieldPoly_monic.ne_zero, fieldPoly_natDegree]
  exact bytePoly_degree_lt a

/-- A byte whose element is that of the polynomial `p` is `p` reduced. -/
theorem bytePoly_eq_modByMonic {a : Byte} {p : (ZMod 2)[X]} (h : fieldElem a = AdjoinRoot.mk fieldPoly p) :
    bytePoly a = p %ₘ fieldPoly := by
  rw [← bytePoly_modByMonic, ← AdjoinRoot.modByMonicHom_mk fieldPoly_monic, ← AdjoinRoot.modByMonicHom_mk fieldPoly_monic]
  exact congrArg _ h

theorem fieldElem_injective : Function.Injective fieldElem := fun _ b h =>
  bytePoly_injective ((bytePoly_eq_modByMonic h).trans (bytePoly_modByMonic b))

theorem fieldElem_zero : fieldElem 0x00 = 0 := by rw [fieldElem, bytePoly_zero, map_zero]

theorem fieldElem_one : fieldElem 0x01 = 1 := by rw [fieldElem, bytePoly_one, map_one]

theorem fieldElem_xor (a b : Byte) : fieldElem (a ^^^ b) = fieldElem a + fieldElem b := by
  rw [fieldElem, bytePoly_xor, map_add, fieldElem, fieldElem]

theorem fieldElem_xtime (a : Byte) : fieldElem (xtime a) = AdjoinRoot.root fieldPoly * fieldElem a := by
  rw [fieldElem, bytePoly_xtime, map_add, map_mul, AdjoinRoot.mk_X, fieldElem]
  split <;> simp

/-- The element that bits `i, ..., i+n-1` of the byte write, bit `i` the lowest. -/
noncomputable def bitsElem (b : Byte) (n i : Nat) : AdjoinRoot fieldPoly :=
  ∑ j ∈ Finset.range n, if b.getLsbD (i + j) then AdjoinRoot.root fieldPoly ^ j else 0

theorem bitsElem_succ (b : Byte) (n i : Nat) :
    bitsElem b (n + 1) i = (if b.getLsbD i then 1 else 0) + AdjoinRoot.root fieldPoly * bitsElem b n (i + 1) := by
  have shift (j : Nat) : i + 1 + j = i + (j + 1) := by omega
  simp [bitsElem, Finset.sum_range_succ', Finset.mul_sum, mul_ite, pow_succ', shift, add_comm]

theorem bitsElem_all (b : Byte) : bitsElem b 8 0 = fieldElem b := by
  simp only [bitsElem, fieldElem, bytePoly, map_sum, Finset.sum_range, Nat.zero_add]
  refine Finset.sum_congr rfl fun i _ => ?_
  split <;> simp

/-- R85, the loop's invariant: what is still to be added is `p` times the bits of `b` not yet read. -/
theorem fieldElem_gmulLoop (b : Byte) (n i : Nat) (acc p : Byte) :
    fieldElem (gmulLoop b n i acc p) = fieldElem acc + fieldElem p * bitsElem b n i := by
  induction n generalizing i acc p with
  | zero => simp [gmulLoop, bitsElem]
  | succ n ih =>
    rw [gmulLoop, ih, bitsElem_succ, fieldElem_xtime]
    split
    · rw [fieldElem_xor]
      ring
    · ring

theorem fieldElem_gmul (a b : Byte) : fieldElem (gmul a b) = fieldElem a * fieldElem b := by
  rw [gmul, fieldElem_gmulLoop, bitsElem_all, fieldElem_zero, zero_add]

/-- Settles O8: the two sides are the same element of the quotient ring, and a byte's polynomial is reduced. -/
theorem fieldProductIsPolynomialProduct : Obligations.FieldProductIsPolynomialProduct := fun a b =>
  bytePoly_eq_modByMonic ((fieldElem_gmul a b).trans (map_mul _ _ _).symm)

/-! ### The laws of the product -/

theorem gmul_comm (a b : Byte) : gmul a b = gmul b a :=
  fieldElem_injective (by rw [fieldElem_gmul, fieldElem_gmul, mul_comm])

theorem gmul_assoc (a b c : Byte) : gmul (gmul a b) c = gmul a (gmul b c) :=
  fieldElem_injective (by simp only [fieldElem_gmul, mul_assoc])

theorem gmul_xor (a b c : Byte) : gmul a (b ^^^ c) = gmul a b ^^^ gmul a c :=
  fieldElem_injective (by simp only [fieldElem_gmul, fieldElem_xor, mul_add])

theorem xor_gmul (a b c : Byte) : gmul (a ^^^ b) c = gmul a c ^^^ gmul b c := by
  rw [gmul_comm, gmul_xor, gmul_comm c, gmul_comm c]

@[simp] theorem one_gmul (a : Byte) : gmul 0x01 a = a :=
  fieldElem_injective (by rw [fieldElem_gmul, fieldElem_one, one_mul])

@[simp] theorem gmul_one (a : Byte) : gmul a 0x01 = a := by rw [gmul_comm, one_gmul]

@[simp] theorem zero_gmul (a : Byte) : gmul 0x00 a = 0x00 :=
  fieldElem_injective (by rw [fieldElem_gmul, fieldElem_zero, zero_mul])

/-- Settles O9: each law is the quotient ring's own, read back through `fieldElem`. -/
theorem fieldProductLaws : Obligations.FieldProductLaws :=
  ⟨gmul_comm, gmul_assoc, gmul_xor, xor_gmul, fun a => ⟨one_gmul a, gmul_one a, zero_gmul a⟩⟩

end Sys2Proof.Machine
end

section
/-! PROOF. The constant tables of spec/40_constant_tables.md: the two forms of the S-box (R81, R82) and the round constants
as blocks (R89). -/

namespace Sys2Proof.Machine

/-- Settles O7: a comparison of the 256 entries with the network's outputs. -/
theorem sboxTableEqualsNetwork : Obligations.SboxTableEqualsNetwork := by
  unfold Obligations.SboxTableEqualsNetwork
  decide

/-- Settles O10: bytes 0 to 7 of a block are column 0 of its matrix, the one column of a round constant that is not zero. -/
theorem roundConstantBlocks : Obligations.RoundConstantBlocks := by
  intro i _ _ k
  have hbyte : (blk (roundConstant i))[k] = roundConstantAt i ⟨k.val % 8, by omega⟩ ⟨k.val / 8, by omega⟩ :=
    (blk_get_nat _ k.isLt).trans (tabulate_get_nat _ _ _)
  rw [hbyte, roundConstantAt]
  by_cases hk : k.val < 8
  · simp [hk, Nat.mod_eq_of_lt hk, Nat.div_eq_of_lt hk]
  · have hcol : k.val / 8 ≠ 0 := by omega
    simp [hk, hcol]

end Sys2Proof.Machine
end

section
/-! PROOF. The layers of spec/41_compression.md R100 to R103 cell by cell, and the laws of ADDKEY that R103 names. -/

namespace Sys2Proof.Machine

theorem subLayer_get (m : ByteMatrix) (r c : Fin 8) : (subLayer m)[r][c] = sbox m[r][c] := tabulate_get _ r c

theorem shiftLayer_get (m : ByteMatrix) (r c : Fin 8) : (shiftLayer m)[r][c] = m[r][c - r] := tabulate_get _ r c

theorem mixLayer_get (m : ByteMatrix) (r c : Fin 8) :
    (mixLayer m)[r][c] = xorOver fun k => gmul (diffusion r k) m[k][c] := tabulate_get _ r c

theorem addKey_get (m a : ByteMatrix) (r c : Fin 8) : (addKey m a)[r][c] = m[r][c] ^^^ a[r][c] := tabulate_get _ r c

theorem xor_xor_cancel {w : Nat} (a t : BitVec w) : a ^^^ t ^^^ t = a := by
  rw [BitVec.xor_assoc, BitVec.xor_self, BitVec.xor_zero]

theorem xor_xor_xor_cancel {w : Nat} (a b t : BitVec w) : (a ^^^ t) ^^^ (b ^^^ t) = a ^^^ b := by
  rw [BitVec.xor_comm b, ← BitVec.xor_assoc, xor_xor_cancel]

/-- R103: ADDKEY is its own inverse. -/
theorem addKey_addKey (m a : ByteMatrix) : addKey (addKey m a) a = m :=
  matrix_ext fun r c => by rw [addKey_get, addKey_get, xor_xor_cancel]

theorem addKey_zeroMatrix (m : ByteMatrix) : addKey m zeroMatrix = m :=
  matrix_ext fun r c => by rw [addKey_get, zeroMatrix_get]; exact BitVec.xor_zero

end Sys2Proof.Machine
end

section
/-! PROOF. SHIFT (spec/41_compression.md R101) moves bytes and changes none, so each of its laws is an equation of column
numbers modulo 8. -/

namespace Sys2Proof.Machine

theorem matrix_get_sub (m : ByteMatrix) (r c : Fin 8) : m[r][c - r] = m[r][(c.val + 8 - r.val) % 8]'(by omega) := by
  have hcol : (c - r).val = (c.val + 8 - r.val) % 8 := by omega
  simp only [Fin.getElem_fin, hcol]

theorem blk_get_cell (m : ByteMatrix) (r c : Fin 8) : (blk m)[8 * c.val + r.val] = m[r][c] := by
  have hrow : (8 * c.val + r.val) % 8 = r.val := by omega
  have hcol : (8 * c.val + r.val) / 8 = c.val := by omega
  rw [blk_get_nat]
  simp only [hrow, hcol, Fin.getElem_fin]

theorem shiftLayer_iterate_get (m : ByteMatrix) (n : Nat) (r c : Fin 8) : (shiftLayer^[n] m)[r][c] = m[r][c - n • r] := by
  induction n generalizing c with
  | zero => simp only [Function.iterate_zero_apply, zero_nsmul, sub_zero]
  | succ n ih => simp only [Function.iterate_succ_apply', shiftLayer_get, ih, succ_nsmul', sub_sub]

/-- R101: eight rotations of a row by `r` places are `r` whole turns. -/
theorem shiftLayer_iterate_eight (m : ByteMatrix) : shiftLayer^[8] m = m := by
  apply matrix_ext
  intro r c
  have hturn : ∀ r : Fin 8, 8 • r = 0 := by decide
  simp only [shiftLayer_iterate_get, hturn, sub_zero]

theorem shiftLayer_subLayer (m : ByteMatrix) : shiftLayer (subLayer m) = subLayer (shiftLayer m) :=
  matrix_ext fun r c => by simp only [shiftLayer_get, subLayer_get]

theorem shiftLayer_addKey (a b : ByteMatrix) : shiftLayer (addKey a b) = addKey (shiftLayer a) (shiftLayer b) :=
  matrix_ext fun r c => by simp only [shiftLayer_get, addKey_get]

theorem shiftLayer_constant_rows (f : Fin 8 → Byte) : shiftLayer (tabulate fun r _ => f r) = tabulate fun r _ => f r :=
  matrix_ext fun r c => by simp only [shiftLayer_get, tabulate_get]

/-- Settles O13: the cell formula, read on the matrix and on its block, and the corner cases that follow from it. -/
theorem shiftLayerRotatesRows : Obligations.ShiftLayerRotatesRows := by
  refine ⟨fun m r c => ?_, fun m r c => ?_, shiftLayer_constant_rows, shiftLayer_iterate_eight, shiftLayer_subLayer,
    shiftLayer_addKey⟩
  · rw [shiftLayer_get, matrix_get_sub]
  · rw [blk_get_cell, shiftLayer_get, matrix_get_sub]
    exact (blk_get_cell m r ⟨(c.val + 8 - r.val) % 8, by omega⟩).symm

end Sys2Proof.Machine
end

section
/-! PROOF. MIX (spec/41_compression.md R102) over the ring of `fieldElem`: read there, a byte matrix is an 8x8 matrix,
ADDKEY the sum, and MIX the product with the matrix `D` of R87, whose inverse is written out. -/

namespace Sys2Proof.Machine

/-! ### XOR over a row -/

theorem xorOver_eq (f : Fin 8 → Byte) : xorOver f = f 0 ^^^ f 1 ^^^ f 2 ^^^ f 3 ^^^ f 4 ^^^ f 5 ^^^ f 6 ^^^ f 7 := by
  rw [← BitVec.zero_xor (x := f 0)]
  rfl

theorem fieldElem_xorOver (f : Fin 8 → Byte) : fieldElem (xorOver f) = ∑ k, fieldElem (f k) := by
  simp only [xorOver_eq, Fin.sum_univ_eight, fieldElem_xor]

theorem xorOver_gmul (f : Fin 8 → Byte) (v : Byte) : (xorOver fun k => gmul (f k) v) = gmul (xorOver f) v :=
  fieldElem_injective (by simp only [fieldElem_xorOver, fieldElem_gmul, Finset.sum_mul])

theorem mixLayer_get_row (m : ByteMatrix) (r c : Fin 8) : (mixLayer m)[r][c] =
    gmul (diffusion r 0) m[0][c] ^^^ gmul (diffusion r 1) m[1][c] ^^^ gmul (diffusion r 2) m[2][c] ^^^
      gmul (diffusion r 3) m[3][c] ^^^ gmul (diffusion r 4) m[4][c] ^^^ gmul (diffusion r 5) m[5][c] ^^^
      gmul (diffusion r 6) m[6][c] ^^^ gmul (diffusion r 7) m[7][c] :=
  (mixLayer_get m r c).trans (xorOver_eq _)

/-- Settles O15: the row formula at each of the eight rows, with the entries of `D` evaluated. -/
theorem mixColumnEquations : Obligations.MixColumnEquations := fun m c =>
  ⟨mixLayer_get_row m 0 c, mixLayer_get_row m 1 c, mixLayer_get_row m 2 c, mixLayer_get_row m 3 c,
    mixLayer_get_row m 4 c, mixLayer_get_row m 5 c, mixLayer_get_row m 6 c, mixLayer_get_row m 7 c⟩

/-! ### The product of matrices -/

/-- A table of bytes as a matrix over the field's ring. -/
noncomputable def fieldMatrix (f : Fin 8 → Fin 8 → Byte) : Matrix (Fin 8) (Fin 8) (AdjoinRoot fieldPoly) :=
  Matrix.of fun r c => fieldElem (f r c)

/-- The cells of a byte matrix as a matrix over the field's ring. -/
noncomputable def cells (m : ByteMatrix) : Matrix (Fin 8) (Fin 8) (AdjoinRoot fieldPoly) := fieldMatrix fun r c => m[r][c]

/-- The product of a table of coefficients with a byte matrix, as MIX computes it (`mixLayer_eq_multiply`). -/
def multiply (d : Fin 8 → Fin 8 → Byte) (m : ByteMatrix) : ByteMatrix :=
  tabulate fun r c => xorOver fun k => gmul (d r k) m[k][c]

theorem mixLayer_eq_multiply : mixLayer = multiply diffusion := rfl

theorem cells_injective : Function.Injective cells := fun _ _ h =>
  matrix_ext fun r c => fieldElem_injective (congrFun (congrFun h r) c)

theorem cells_addKey (a b : ByteMatrix) : cells (addKey a b) = cells a + cells b := by
  ext r c
  exact (congrArg fieldElem (addKey_get a b r c)).trans (fieldElem_xor _ _)

theorem cells_zeroMatrix : cells zeroMatrix = 0 := by
  ext r c
  exact (congrArg fieldElem (zeroMatrix_get r c)).trans fieldElem_zero

theorem cells_multiply (d : Fin 8 → Fin 8 → Byte) (m : ByteMatrix) : cells (multiply d m) = fieldMatrix d * cells m := by
  ext r c
  refine (congrArg fieldElem (tabulate_get _ r c)).trans ?_
  simp only [fieldElem_xorOver, fieldElem_gmul, Matrix.mul_apply, cells, fieldMatrix, Matrix.of_apply]

theorem multiply_multiply {d e : Fin 8 → Fin 8 → Byte} (h : fieldMatrix d * fieldMatrix e = 1) (m : ByteMatrix) :
    multiply d (multiply e m) = m :=
  cells_injective (by rw [cells_multiply, cells_multiply, ← Matrix.mul_assoc, h, Matrix.one_mul])

/-! ### The inverse of `D` -/

/-- The inverse of the diffusion matrix `D` of R87, a circulant matrix too. -/
def diffusionInverse (r k : Fin 8) : Byte :=
  (#v[0x04, 0xAF, 0x0E, 0xA4, 0xC2, 0xC2, 0xCB, 0x3E] : Vector Byte 8)[(r - k).val]

theorem diffusionInverse_diffusion : ∀ r c : Fin 8,
    (xorOver fun k => gmul (diffusionInverse r k) (diffusion k c)) = if r = c then 0x01 else 0x00 := by decide

theorem fieldMatrix_diffusionInverse_mul : fieldMatrix diffusionInverse * fieldMatrix diffusion = 1 := by
  ext r c
  have hcell := congrArg fieldElem (diffusionInverse_diffusion r c)
  rw [apply_ite fieldElem, fieldElem_one, fieldElem_zero, fieldElem_xorOver] at hcell
  simpa only [fieldElem_gmul, Matrix.mul_apply, Matrix.one_apply, fieldMatrix, Matrix.of_apply] using hcell

theorem mixLayer_bijective : Function.Bijective mixLayer := by
  rw [mixLayer_eq_multiply, Function.bijective_iff_has_inverse]
  exact ⟨multiply diffusionInverse, multiply_multiply fieldMatrix_diffusionInverse_mul,
    multiply_multiply (mul_eq_one_comm.1 fieldMatrix_diffusionInverse_mul)⟩

/-! ### The corner cases of R102 -/

theorem mixLayer_addKey (a b : ByteMatrix) : mixLayer (addKey a b) = addKey (mixLayer a) (mixLayer b) :=
  cells_injective (by simp only [mixLayer_eq_multiply, cells_multiply, cells_addKey, Matrix.mul_add])

theorem mixLayer_zeroMatrix : mixLayer zeroMatrix = zeroMatrix :=
  cells_injective (by rw [mixLayer_eq_multiply, cells_multiply, cells_zeroMatrix, Matrix.mul_zero])

theorem mixLayer_get_congr {a b : ByteMatrix} {c : Fin 8} (h : ∀ k : Fin 8, a[k][c] = b[k][c]) (r : Fin 8) :
    (mixLayer a)[r][c] = (mixLayer b)[r][c] := by
  simp only [mixLayer_get, h]

/-- R102: the coefficients of each row sum to `0x03`. -/
theorem xorOver_diffusion : ∀ r : Fin 8, xorOver (diffusion r) = 0x03 := by decide

theorem mixLayer_constant (v : Byte) : mixLayer (tabulate fun _ _ => v) = tabulate fun _ _ => gmul 0x03 v :=
  matrix_ext fun r c => by simp only [mixLayer_get, tabulate_get, xorOver_gmul, xorOver_diffusion]

/-- Settles O14: linearity and invertibility are those of the product with `D`; the other two are read off the cells. -/
theorem mixLayerLinearInvertible : Obligations.MixLayerLinearInvertible :=
  ⟨mixLayer_addKey, mixLayer_zeroMatrix, fun _ _ _ h => mixLayer_get_congr h, mixLayer_constant, mixLayer_bijective⟩

end Sys2Proof.Machine
end

section
/-! PROOF. The round keys, the rounds and the feed-forward of the compression function (spec/41_compression.md R106 to
R108): `keySchedule` by its recurrence, and `wCipher` as a fold of the round over the keys. -/

namespace Sys2Proof.Machine

theorem keySchedule_get (kin : ByteMatrix) {i : Nat} (h : i < Config.nkeys) :
    (keySchedule kin)[i] = roundKey kin i := Vector.getElem_ofFn h

/-- R107: the state after `i` rounds is the fold of ROUND over the first `i` keys after `K[0]`. -/
theorem cipherState_eq_foldl (keys : Vector ByteMatrix Config.nkeys) (p : ByteMatrix) {i : Nat} (h : i ≤ Config.rounds) :
    cipherState keys p i h = (keys.toList.tail.take i).foldl cipherRound (addKey p keys[0]) := by
  induction i with
  | zero => rfl
  | succ i ih =>
    have hi : i < keys.toList.tail.length := by
      rw [List.length_tail, Vector.length_toList]
      exact h
    rw [cipherState, ih, List.take_succ_eq_append_getElem hi, List.foldl_append, List.getElem_tail, Vector.getElem_toList]
    rfl

theorem wCipher_eq_foldl (kin p : ByteMatrix) :
    wCipher kin p = (keySchedule kin).toList.tail.foldl cipherRound (addKey p kin) := by
  have hall : (keySchedule kin).toList.tail.length ≤ Config.rounds := by
    rw [List.length_tail, Vector.length_toList]
    exact Nat.le_refl _
  rw [wCipher, cipherState_eq_foldl, List.take_of_length_le hall, keySchedule_get]
  rfl

theorem compress_get (hin b : ByteMatrix) (r c : Fin 8) :
    (compress hin b)[r][c] = (wCipher hin b)[r][c] ^^^ b[r][c] ^^^ hin[r][c] := by
  rw [compress, addKey_get, addKey_get]

/-- Settles O16: the recurrence is `roundKey`'s own, the rounds are the fold, and in the corner cases the feed-forward
cancels or adds zeros. -/
theorem compressionStructure : Obligations.CompressionStructure := by
  refine fun hin b => ⟨keySchedule_get hin _, fun i hi => ?_, wCipher_eq_foldl hin b, compress_get hin b,
    addKey_addKey _ hin, addKey_zeroMatrix _⟩
  rw [keySchedule_get, keySchedule_get, roundKey]

end Sys2Proof.Machine
end

section
/-! PROOF. Every layer undoes (spec/41_compression.md R100, R104, R107): the S-box because the network of R82 runs
backwards, SHIFT because it has period 8, MIX by the inverse of `D`, and ADDKEY by itself. -/

namespace Sys2Proof.Machine

/-! ### The S-box -/

/-- The network of R82 with the table `e` on the high nibble and `ei` on the low one. -/
def boxNetwork (e ei : Vector (BitVec 4) 16) (u : Byte) : Byte :=
  let a := nibbleAt e (u.extractLsb' 4 4)
  let b := nibbleAt ei (u.extractLsb' 0 4)
  let t := nibbleAt miniR (a ^^^ b)
  nibbleAt e (a ^^^ t) ++ nibbleAt ei (b ^^^ t)

theorem sbox_eq_boxNetwork : sbox = boxNetwork miniE miniEi := funext sboxTableEqualsNetwork

/-- Exchanging the two tables runs the network backwards: `R` is asked for `a ^^^ b` both ways. -/
theorem boxNetwork_boxNetwork {e ei : Vector (BitVec 4) 16} (h : ∀ v, nibbleAt e (nibbleAt ei v) = v)
    (h' : ∀ v, nibbleAt ei (nibbleAt e v) = v) : Function.LeftInverse (boxNetwork ei e) (boxNetwork e ei) := by
  intro u
  simp only [boxNetwork, BitVec.extractLsb'_append_eq_left, BitVec.extractLsb'_append_eq_right, h, h', xor_xor_xor_cancel,
    xor_xor_cancel]
  exact BitVec.extractLsb'_append_extractLsb'

theorem sbox_bijective : Function.Bijective sbox := by
  have hE : ∀ v, nibbleAt miniE (nibbleAt miniEi v) = v := by decide
  have hEi : ∀ v, nibbleAt miniEi (nibbleAt miniE v) = v := by decide
  rw [sbox_eq_boxNetwork, Function.bijective_iff_has_inverse]
  exact ⟨boxNetwork miniEi miniE, boxNetwork_boxNetwork hE hEi, boxNetwork_boxNetwork hEi hE⟩

/-! ### The layers and the round -/

theorem subLayer_bijective : Function.Bijective subLayer := by
  obtain ⟨g, hleft, hright⟩ := Function.bijective_iff_has_inverse.1 sbox_bijective
  refine Function.bijective_iff_has_inverse.2 ⟨fun m => tabulate fun r c => g m[r][c], fun m => ?_, fun m => ?_⟩
  · exact matrix_ext fun r c => by rw [tabulate_get, subLayer_get, hleft]
  · exact matrix_ext fun r c => by rw [subLayer_get, tabulate_get, hright]

theorem shiftLayer_bijective : Function.Bijective shiftLayer :=
  Function.bijective_iff_has_inverse.2 ⟨shiftLayer^[7], shiftLayer_iterate_eight, fun m =>
    (Function.iterate_succ_apply' shiftLayer 7 m).symm.trans (shiftLayer_iterate_eight m)⟩

theorem addKey_bijective (a : ByteMatrix) : Function.Bijective fun m => addKey m a :=
  Function.Involutive.bijective fun m => addKey_addKey m a

theorem cipherRound_bijective (a : ByteMatrix) : Function.Bijective fun m => cipherRound m a :=
  (addKey_bijective a).comp (mixLayer_bijective.comp (shiftLayer_bijective.comp subLayer_bijective))

theorem cipherState_bijective (keys : Vector ByteMatrix Config.nkeys) {i : Nat} (h : i ≤ Config.rounds) :
    Function.Bijective fun p => cipherState keys p i h := by
  induction i with
  | zero => exact addKey_bijective keys[0]
  | succ i ih => exact (cipherRound_bijective _).comp (ih (Nat.le_of_succ_le h))

/-- Settles O17: each is a composition of layers that undo. -/
theorem cipherBijectiveForFixedKey : Obligations.CipherBijectiveForFixedKey :=
  ⟨subLayer_bijective, cipherRound_bijective, fun k => cipherState_bijective (keySchedule k) (Nat.le_refl _)⟩

end Sys2Proof.Machine
end

section
/-! PROOF. The published orientation (spec/41_compression.md R110) is the engine's, transposed: every layer, and so every
round key, every state of the cipher and the compression function, is the engine's one between two transpositions. -/

namespace Sys2Proof.Machine

/-- Rows and columns exchanged: the row-major matrix of a block from its column-major one. -/
def transposed (m : ByteMatrix) : ByteMatrix := tabulate fun r c => m[c][r]

theorem transposed_get (m : ByteMatrix) (r c : Fin 8) : (transposed m)[r][c] = m[c][r] := tabulate_get _ r c

theorem published_mat (b : Block) : Published.mat b = transposed (mat b) :=
  matrix_ext fun r c => by rw [transposed_get, mat_get, Published.mat, tabulate_get]

theorem published_blk (m : ByteMatrix) : Published.blk (transposed m) = blk m := by
  apply Vector.ext
  intro k hk
  rw [blk_get_nat, Published.blk, Vector.getElem_ofFn]
  exact tabulate_get_nat _ _ _

/-! ### The layers -/

theorem subLayer_transposed (m : ByteMatrix) : subLayer (transposed m) = transposed (subLayer m) :=
  matrix_ext fun r c => by simp only [transposed_get, subLayer_get]

theorem addKey_transposed (m a : ByteMatrix) : addKey (transposed m) (transposed a) = transposed (addKey m a) :=
  matrix_ext fun r c => by simp only [transposed_get, addKey_get]

theorem published_shiftColumns (m : ByteMatrix) : Published.shiftColumns (transposed m) = transposed (shiftLayer m) :=
  matrix_ext fun r c => by simp only [Published.shiftColumns, tabulate_get, transposed_get, shiftLayer_get]

theorem published_circulant (k j : Fin 8) : Published.circulant k j = diffusion j k := rfl

theorem published_mixRows (m : ByteMatrix) : Published.mixRows (transposed m) = transposed (mixLayer m) :=
  matrix_ext fun r c => by
    simp only [Published.mixRows, tabulate_get, transposed_get, mixLayer_get, published_circulant, gmul_comm (diffusion c _)]

theorem published_roundConstant (i : Nat) : Published.roundConstant i = transposed (roundConstant i) :=
  matrix_ext fun r c => by simp only [Published.roundConstant, roundConstant, roundConstantAt, transposed_get, tabulate_get]

/-! ### The rounds -/

theorem published_cipherRound (m a : ByteMatrix) :
    Published.cipherRound (transposed m) (transposed a) = transposed (cipherRound m a) := by
  rw [Published.cipherRound, subLayer_transposed, published_shiftColumns, published_mixRows, addKey_transposed, cipherRound]

theorem published_roundKey (kin : ByteMatrix) (i : Nat) :
    Published.roundKey (transposed kin) i = transposed (roundKey kin i) := by
  induction i with
  | zero => rfl
  | succ i ih => rw [Published.roundKey, ih, published_roundConstant, published_cipherRound, roundKey]

theorem published_cipherState (kin p : ByteMatrix) {i : Nat} (h : i ≤ Config.rounds) :
    Published.cipherState (transposed kin) (transposed p) i = transposed (cipherState (keySchedule kin) p i h) := by
  induction i with
  | zero => rw [Published.cipherState, published_roundKey, addKey_transposed, cipherState, keySchedule_get]
  | succ i ih =>
    rw [Published.cipherState, ih (Nat.le_of_succ_le h), published_roundKey, published_cipherRound, cipherState,
      keySchedule_get]

theorem published_compress (hin b : ByteMatrix) :
    Published.compress (transposed hin) (transposed b) = transposed (compress hin b) := by
  rw [Published.compress, published_cipherState hin b (Nat.le_refl _), addKey_transposed, addKey_transposed, compress, wCipher]

/-- Settles O18: the block is placed transposed, and `published_compress` carries the transposition to the result. -/
theorem publishedOrientationAgrees : Obligations.PublishedOrientationAgrees := fun hin b => by
  rw [Published.compressBlocks, published_mat, published_mat, published_compress, published_blk]

end Sys2Proof.Machine
end

section
/-! PROOF. The micro-operations and the padding of spec/42_hash_engine.md one by one: ABSORB with its FLUSH (R135, R136), and
the length of the padded message (R140). -/

namespace Sys2Proof.Machine

/-- Settles O19: `absorb_BUF_get` and `absorb_BUFN` give the buffer and its fill, `absorb_H` the FLUSH, and the length is that
of a loop of one byte. -/
theorem absorbStoresCountsFlushes : Obligations.AbsorbStoresCountsFlushes := by
  intro b s hfit
  refine ⟨absorbAll_LEN [b] s hfit, fun j => ?_, fun hroom => ⟨?_, ?_⟩, fun hfull => ⟨?_, ?_⟩, absorb_PHASE b s,
    absorb_response b s, absorb_inputs b s⟩
  · rw [absorb_BUF_get]
    exact if_congr eq_comm rfl rfl
  · rw [absorb_BUFN, Nat.mod_eq_of_lt (by omega)]
  · rw [absorb_H, if_neg hroom.ne]
  · rw [absorb_BUFN, hfull]
  · rw [absorb_H, if_pos hfull]
    simp only [hfull]

theorem padSuffix_blocks (n : Nat) (l : BitVec 256) : n + (padSuffix n l).length = 64 * blockCount n := by
  rw [padSuffix_length, blockCount]
  split <;> omega

/-- Settles O21: the fill is a remainder modulo 64, and it completes the last block. -/
theorem paddedMessageIsWholeBlocks : Obligations.PaddedMessageIsWholeBlocks := by
  intro m
  refine ⟨?_, ?_⟩
  · rw [padded, List.length_append, padSuffix_blocks]
  · rw [padZeros_eq]
    omega

end Sys2Proof.Machine
end

section
/-! PROOF. What each command does, by phase and capacity (spec/42_hash_engine.md R130, R132, R138), as an equation on `exec`;
the outcomes of UPDATE and FINALIZE are read off these. -/

namespace Sys2Proof.Machine

/-! ### The equations of `exec` -/

/-- R130: either command outside ACCUM. -/
theorem exec_ended (i : Instr) {s : State} (hp : s.PHASE ≠ .accum) : exec i s = .next (respond .errMisuse [] s) := by
  cases i with
  | update d => rw [exec, execUpdate, whenAccepting_ended _ hp]
  | finalize => rw [exec, execFinalize, whenAccepting_ended _ hp]

/-- R133: an UPDATE with too many bits. -/
theorem exec_update_over {d : List Byte} {s : State} (hp : s.PHASE = .accum) (hc : 2 ^ 256 ≤ s.LEN.toNat + 8 * d.length) :
    exec (.update d) s = .next (raiseError .capacity s) := by
  rw [exec, execUpdate, whenAccepting_accum _ hp, updateBody_over hc]

/-- R132: an UPDATE with room for its bits. -/
theorem exec_update_fits {d : List Byte} {s : State} (hp : s.PHASE = .accum) (hfit : s.LEN.toNat + 8 * d.length < 2 ^ 256) :
    exec (.update d) s = .next (respond .ok [] (absorbAll d s)) := by
  rw [exec, execUpdate, whenAccepting_accum _ hp, updateBody_fits hfit]

theorem exec_finalize_accum {s : State} (hp : s.PHASE = .accum) : exec .finalize s = .next (finalizeBody s) := by
  rw [exec, execFinalize, whenAccepting_accum _ hp]

/-- R132: an UPDATE answered OK in ACCUM has absorbed its payload. -/
theorem eq_of_exec_update_ok {d : List Byte} {s t : State} (hp : s.PHASE = .accum) (ht : exec (.update d) s = .next t)
    (hr : t.response = some ⟨.ok, []⟩) : t = respond .ok [] (absorbAll d s) := by
  rcases Nat.lt_or_ge (s.LEN.toNat + 8 * d.length) (2 ^ 256) with hfit | hc
  · rw [exec_update_fits hp hfit] at ht
    exact (Host.Outcome.next.inj ht).symm
  · rw [exec_update_over hp hc] at ht
    rw [← Host.Outcome.next.inj ht, raiseError_response] at hr
    exact absurd hr (by decide)

/-- Settles O31: the dispatch of `step`, with the event and what it decodes to put in. -/
theorem stepRunsTheDecodedCommand : Obligations.StepRunsTheDecodedCommand := by
  intro s tr rest i hs hd
  simp only [step, fetch_cons hs, hd, withInputs]

/-! ### UPDATE -/

/-- Settles O22: Misuse, Capacity and OK are the three equations of `exec`, and the registers are those after the loop of
ABSORB. -/
theorem updateOutcomeInEveryPhase : Obligations.UpdateOutcomeInEveryPhase := by
  intro d s
  refine ⟨fun hp => ⟨_, exec_ended _ hp, rfl, respond_sameRegisters _ _ s, rfl⟩, fun hp hc => ?_, fun hp hfit => ?_⟩
  · refine ⟨_, exec_update_over hp hc, rfl, raiseError_zeroised _ hp, ?_, raiseError_inputs _ s⟩
    rw [raiseError_PHASE, if_pos hp]
  · refine ⟨_, exec_update_fits hp hfit, rfl, rfl, ?_, ?_, ?_, ?_, fun hblock => ?_, ?_⟩
    · rw [respond_LEN, absorbAll_LEN d s hfit]
    · rw [respond_BUFN, absorbAll_BUFN]
    · rw [respond_PHASE, absorbAll_PHASE, hp]
    · rw [respond_inputs, absorbAll_inputs]
    · rw [respond_H, absorbAll_H_of_lt (by omega)]
    · rintro rfl
      exact respond_sameRegisters _ _ s

theorem respond_absorbed (st : Status) (data : List Byte) {h : ByteMatrix} {m : List Byte} {s : State}
    (hs : Absorbed h m s) : Absorbed h m (respond st data s) :=
  ⟨hs.chaining, hs.bufn, hs.tail⟩

/-- Settles O23: the valid bytes of the buffer are absorbed already, and the loop continues them with the payload. -/
theorem updateCompletesInClosedForm : Obligations.UpdateCompletesInClosedForm := by
  intro d s hp hfit
  refine ⟨_, exec_update_fits hp hfit, rfl, ?_, respond_absorbed _ _ (absorbAll_absorbed d (absorbed_self s)), ?_, ?_⟩
  · rw [respond_PHASE, absorbAll_PHASE, hp]
  · rw [respond_LEN, absorbAll_LEN d s hfit]
  · rw [respond_inputs, absorbAll_inputs]

/-- R135: the `j`-th byte lands at `(BUFN + j) mod 64`, and a byte of the buffer where none lands is left. -/
theorem absorbAll_BUF_get_of_none_lands {d : List Byte} {s : State} {i : Fin 64}
    (hi : ∀ j < d.length, (s.BUFN.val + j) % 64 ≠ i.val) : (absorbAll d s).BUF[i] = s.BUF[i] := by
  induction d generalizing s with
  | nil => rfl
  | cons b d ih =>
    have hfirst : s.BUFN.val ≠ i.val := by
      have h0 := hi 0 (Nat.succ_pos _)
      rwa [Nat.add_zero, Nat.mod_eq_of_lt s.BUFN.isLt] at h0
    have hrest : ∀ j < d.length, ((absorb b s).BUFN.val + j) % 64 ≠ i.val := by
      intro j hj
      have hnext := hi (j + 1) (Nat.succ_lt_succ hj)
      rwa [absorb_BUFN, Nat.mod_add_mod, Nat.add_assoc, Nat.add_comm 1]
    rw [absorbAll_cons, ih hrest, absorb_BUF_get, if_neg hfirst]

/-- Settles O24: the state is the one after the loop of ABSORB, which has this frame. -/
theorem updateFrame : Obligations.UpdateFrame := by
  intro d s t ht hr hp
  rw [eq_of_exec_update_ok hp ht hr]
  exact ⟨absorbAll_PHASE d s, absorbAll_inputs d s, absorbAll_H_of_lt, fun _ hi => absorbAll_BUF_get_of_none_lands hi⟩

/-! ### FINALIZE -/

theorem emit_get (s : State) (k : Fin 64) : (emit s)[k.val]? = some (s.H[k.val % 8][k.val / 8]) := by
  rw [emit, Vector.getElem?_toList, Vector.getElem?_eq_getElem k.isLt, blk_get_nat]

/-- Settles O25: Misuse and OK are the two equations of `exec`. -/
theorem finalizeOutcomeInEveryPhase : Obligations.FinalizeOutcomeInEveryPhase := by
  intro s
  refine ⟨fun hp => ⟨_, exec_ended _ hp, rfl, respond_sameRegisters _ _ s, rfl⟩, fun hp => ?_⟩
  exact ⟨_, _, exec_finalize_accum hp, finalizeBody_response s, emit_length _, emit_get _, finalizeBody_zeroised s,
    finalizeBody_PHASE s, finalizeBody_inputs s⟩

/-- R139: the valid bytes of the buffer and their padding are one block, or two. -/
theorem blockCount_of_fill {n : Nat} (hn : n < 64) : blockCount n = if n ≤ 31 then 1 else 2 := by
  rw [blockCount, Nat.mod_eq_of_lt hn, Nat.div_eq_of_lt hn]

/-- Settles O26: PAD continues the fold over the valid bytes of the buffer to the end of their padding. -/
theorem finalizeCompletesInClosedForm : Obligations.FinalizeCompletesInClosedForm := by
  intro s hp
  have hN := s.BUFN.isLt
  have hlen : (s.BUF.toList.take s.BUFN.val).length = s.BUFN.val := by
    rw [List.length_take, Vector.length_toList, Nat.min_eq_left hN.le]
  have hpad := pad_H_of_absorbed s.LEN (absorbed_self s)
  rw [List.length_append, hlen, padSuffix_blocks, Nat.mul_div_cancel_left _ (by decide), blockCount_of_fill hN] at hpad
  refine ⟨_, exec_finalize_accum hp, ?_, finalizeBody_zeroised s, finalizeBody_PHASE s, finalizeBody_inputs s⟩
  rw [finalizeBody_response, emit, hpad]

end Sys2Proof.Machine
end

section
/-! PROOF. A message sent in chunks (spec/42_hash_engine.md R137, R142): only the response tells two UPDATEs from one, and the
last response overwrites it. -/

namespace Sys2Proof.Machine

/-! ### The response port is written, and read by no operation -/

theorem respond_respond (st st' : Status) (data data' : List Byte) (s : State) :
    respond st data (respond st' data' s) = respond st data s := rfl

theorem absorb_respond (b : Byte) (st : Status) (data : List Byte) (s : State) :
    absorb b (respond st data s) = respond st data (absorb b s) := by
  by_cases hroom : s.BUFN.val + 1 < 64
  · rw [absorb_room hroom, absorb_room (s := respond st data s) hroom]
    rfl
  · have hfull : s.BUFN.val = 63 := by omega
    rw [absorb_full hfull, absorb_full (s := respond st data s) hfull]
    rfl

theorem absorbAll_respond (d : List Byte) (st : Status) (data : List Byte) (s : State) :
    absorbAll d (respond st data s) = respond st data (absorbAll d s) := by
  induction d generalizing s with
  | nil => rfl
  | cons b d ih => rw [absorbAll_cons, absorb_respond, ih, absorbAll_cons]

/-- R166: in ACCUM error entry keeps nothing of the registers, so they may be any. -/
theorem raiseError_accum_congr (e : EngineError) {s t : State} (hs : s.PHASE = .accum) (ht : t.PHASE = .accum)
    (hI : t.inputs = s.inputs) : raiseError e t = raiseError e s := by
  rw [raiseError_accum e hs, raiseError_accum e ht]
  exact State.eq_of_fields rfl rfl rfl rfl rfl rfl hI

/-- Settles O42, by whether the second chunk fits: both sides enter the error Capacity, or both have absorbed the two
chunks. -/
theorem streamingEquivalence : Obligations.StreamingEquivalence := by
  intro c d s t hp hfit ht
  rw [exec_update_fits hp hfit] at ht
  obtain rfl := Host.Outcome.next.inj ht
  have hp' : (respond .ok [] (absorbAll c s)).PHASE = .accum := by rw [respond_PHASE, absorbAll_PHASE, hp]
  have htotal : (respond .ok [] (absorbAll c s)).LEN.toNat + 8 * d.length = s.LEN.toNat + 8 * (c ++ d).length := by
    rw [respond_LEN, absorbAll_LEN c s hfit, List.length_append]
    omega
  rcases Nat.lt_or_ge (s.LEN.toNat + 8 * (c ++ d).length) (2 ^ 256) with hd | hd
  · rw [exec_update_fits hp' (by rwa [htotal]), exec_update_fits hp hd, absorbAll_respond, respond_respond, absorbAll_append]
  · rw [exec_update_over hp' (by rwa [htotal]), exec_update_over hp hd,
      raiseError_accum_congr .capacity hp hp' (absorbAll_inputs c s)]

/-- Settles O43: the events are those of a message sent in the payloads `cs`, and its FINALIZE. -/
theorem digestOfEverySplitting : Obligations.DigestOfEverySplitting :=
  fun _ _ hcs hfit hs => transcript_reset_sendAndFinalize hcs hfit hs

end Sys2Proof.Machine
end

section
/-! PROOF. The three errors of spec/60_exceptions.md: when Misuse (R162) and Capacity (R163) are raised by a command, which
error a transaction is answered with (R165), and what error entry does to the state (R166, R167). -/

namespace Sys2Proof.Machine

/-! ### Misuse and Capacity, by the equations of `exec` -/

/-- Settles O27: `exec_ended` is the first clause; in ACCUM an UPDATE is answered `ERR_CAPACITY` or OK, a FINALIZE OK. -/
theorem misuseOutsideAccumOnly : Obligations.MisuseOutsideAccumOnly := by
  intro i s
  refine ⟨exec_ended i, fun hp => ?_⟩
  cases i with
  | update d =>
    rcases Nat.lt_or_ge (s.LEN.toNat + 8 * d.length) (2 ^ 256) with hfit | hc
    · exact ⟨_, _, exec_update_fits hp hfit, rfl, nofun⟩
    · exact ⟨_, _, exec_update_over hp hc, rfl, nofun⟩
  | finalize => exact ⟨_, _, exec_finalize_accum hp, finalizeBody_response s, nofun⟩

/-- R166: from ACCUM error entry leaves a dead instance. -/
theorem raiseError_PHASE_accum (e : EngineError) {s : State} (hp : s.PHASE = .accum) :
    (raiseError e s).PHASE = .failed := by
  rw [raiseError_PHASE, if_pos hp]

/-- Settles O28: outside ACCUM the answer is `ERR_MISUSE`, and in ACCUM the sum decides between Capacity and OK. -/
theorem capacityRefusesTheWholePayload : Obligations.CapacityRefusesTheWholePayload := by
  refine ⟨fun d s => ?_, fun s => ?_⟩
  · by_cases hp : s.PHASE = .accum
    · rcases Nat.lt_or_ge (s.LEN.toNat + 8 * d.length) (2 ^ 256) with hfit | hc
      · exact ⟨_, _, exec_update_fits hp hfit, rfl, ⟨nofun, fun h => absurd h.2 (Nat.not_le.2 hfit)⟩, nofun⟩
      · exact ⟨_, _, exec_update_over hp hc, rfl, ⟨fun _ => ⟨hp, hc⟩, fun _ => rfl⟩,
          fun _ => ⟨rfl, raiseError_zeroised _ hp, raiseError_PHASE_accum _ hp, raiseError_inputs _ s⟩⟩
    · exact ⟨_, _, exec_ended _ hp, rfl, ⟨nofun, fun h => absurd h.1 hp⟩, nofun⟩
  · by_cases hp : s.PHASE = .accum
    · exact ⟨_, _, exec_finalize_accum hp, finalizeBody_response s, nofun⟩
    · exact ⟨_, _, exec_ended _ hp, rfl, nofun⟩

/-! ### Which error a transaction is answered with -/

/-- R165: the answer to any transaction has the status that `answerStatus` gives. -/
theorem exists_afterCommand_response (tr : Transaction) (s : State) :
    ∃ data, (afterEvent (.command tr) s).response = some ⟨answerStatus tr s.PHASE s.LEN, data⟩ := by
  by_cases hd : decode tr = .ok .finalize
  · by_cases hp : s.PHASE = .accum
    · exact ⟨emit (pad s.LEN s), by simp [afterEvent, answerStatus, hd, hp, whenAccepting_accum, finalizeBody_response]⟩
    · exact ⟨[], by simp [afterEvent, answerStatus, hd, hp, whenAccepting_ended]⟩
  · exact ⟨[], afterCommand_response hd s⟩

/-- Settles O29, by the tests of `answerStatus` in R165's order: the decoding, the phase, the sum. -/
theorem errorPriority : Obligations.ErrorPriority := by
  intro s tr rest hs
  obtain ⟨data, hr⟩ := exists_afterCommand_response tr (withInputs rest s)
  refine ⟨_, _, step_event hs, hr, ?_⟩
  simp only [withInputs_PHASE, withInputs_LEN, answerStatus]
  cases decode tr with
  | error why => simp
  | ok i =>
    by_cases hp : s.PHASE = .accum
    · cases i with
      | update d =>
        rcases Nat.lt_or_ge (s.LEN.toNat + 8 * d.length) (2 ^ 256) with hfit | hc
        · simp [-Nat.reducePow, hp, hfit, Nat.not_le.2 hfit]
        · simp [-Nat.reducePow, hp, hc, Nat.not_lt.2 hc]
      | finalize => simp [hp]
    · simp [hp]

/-! ### The state that an error finds and leaves -/

/-- R167: a transaction raises an error on the state it found, or is answered OK. -/
theorem afterCommand_eq_raiseError_or_ok (tr : Transaction) (s : State) :
    (∃ e, afterEvent (.command tr) s = raiseError e s) ∨
    ∃ data, (afterEvent (.command tr) s).response = some ⟨.ok, data⟩ := by
  rcases afterCommand_cases tr s with ⟨-, h⟩ | ⟨-, hp, h⟩ | ⟨-, -, -, -, h⟩ | ⟨-, d, -, -, h⟩ | ⟨-, -, h⟩ <;> rw [h]
  · exact .inl ⟨.illegal, rfl⟩
  · exact .inl ⟨.misuse, (raiseError_ended .misuse hp).symm⟩
  · exact .inl ⟨.capacity, rfl⟩
  · exact .inr ⟨_, rfl⟩
  · exact .inr ⟨_, finalizeBody_response s⟩

/-- Settles O30: error entry by the phase, and a command that is not answered OK has entered it. -/
theorem errorEntryZeroisesOrChangesNothing : Obligations.ErrorEntryZeroisesOrChangesNothing := by
  refine ⟨fun e s => ⟨raiseError_response e s, raiseError_inputs e s,
    fun hp => ⟨raiseError_zeroised e hp, raiseError_PHASE_accum e hp⟩, raiseError_sameRegisters e⟩, ?_⟩
  intro s t tr rest r hs hstep hr hne
  obtain rfl := Host.Outcome.next.inj ((step_event hs).symm.trans hstep)
  rcases afterCommand_eq_raiseError_or_ok tr (withInputs rest s) with ⟨e, h⟩ | ⟨data, hok⟩
  · rw [h, raiseError_response] at hr
    exact ⟨e, (Option.some.inj hr).symm, h⟩
  · obtain rfl := Option.some.inj (hok.symm.trans hr)
    exact absurd rfl hne

end Sys2Proof.Machine
end

section
/-! PROOF. The reset event (spec/70_reset_and_hazards.md R191, R192): an equation on `resetEngine`, whichever event it
answers. -/

namespace Sys2Proof.Machine

/-- R191: a second reset finds the reset values there already; only the host's later events are others. -/
theorem resetEngine_withInputs_resetEngine (more : List HostEvent) (s : State) :
    resetEngine (withInputs more (resetEngine s)) = withInputs more (resetEngine s) := rfl

/-- Settles O36: the step is `resetEngine`, and a reset of its result takes one more event off. -/
theorem resetEventFromAnyPhase : Obligations.ResetEventFromAnyPhase := by
  intro s rest hs
  refine ⟨_, step_event hs, resetEngine_zeroised _, resetEngine_PHASE _, resetEngine_response _, resetEngine_inputs _, ?_⟩
  intro more hrest
  rw [afterEvent_reset, step_event ((resetEngine_inputs (withInputs rest s)).trans hrest), afterEvent_reset,
    resetEngine_withInputs_resetEngine]
  rfl

/-- Settles O37: both steps are a reset with the same events left. -/
theorem resetDuringCommandDropsIt : Obligations.ResetDuringCommandDropsIt := by
  intro s tr rest hs
  rw [step_event hs, step_event (s := { s with inputs := .reset :: rest }) rfl, afterEvent_resetDuring, afterEvent_reset]
  rfl

end Sys2Proof.Machine
end

section
/-! PROOF. The end of a computation (spec/70_reset_and_hazards.md R196, R199, spec/60_exceptions.md R168): which response
ends it, and that an ended instance answers every command with an error and no data until a reset. -/

namespace Sys2Proof.Machine

theorem ended_iff (s : State) : s.ended = true ↔ s.PHASE ≠ .accum := by simp [State.ended]

theorem not_ended_iff (s : State) : s.ended = false ↔ s.PHASE = .accum := by simp [State.ended]

theorem endedSuccessfully_iff (s : State) : s.endedSuccessfully = true ↔ s.PHASE = .final := by
  simp [State.endedSuccessfully]

/-- R199: the third phase is the end in failure. -/
theorem endedInFailure_iff (s : State) : s.ended = true ∧ s.endedSuccessfully = false ↔ s.PHASE = .failed := by
  unfold State.ended State.endedSuccessfully
  cases s.PHASE <;> decide

/-! ### An ended instance -/

/-- R168: outside ACCUM a transaction is answered Illegal or Misuse, and the response is all that it writes. -/
theorem afterCommand_ended (tr : Transaction) {s : State} (hp : s.PHASE ≠ .accum) :
    ∃ st, (st = .errMisuse ∨ st = .errIllegal) ∧ afterEvent (.command tr) s = respond st [] s := by
  cases hd : decode tr with
  | error why => exact ⟨.errIllegal, .inr rfl, (afterEvent_illegal hd s).trans (raiseError_ended .illegal hp)⟩
  | ok i =>
    refine ⟨.errMisuse, .inl rfl, ?_⟩
    cases i with
    | update d => simp only [afterEvent, hd, whenAccepting_ended _ hp]
    | finalize => simp only [afterEvent, hd, whenAccepting_ended _ hp]

/-- Settles O50: a step that is no reset is idle, or takes a command, which writes a response and nothing else. -/
theorem endedInstanceStaysEndedUntilReset : Obligations.EndedInstanceStaysEndedUntilReset := by
  intro s t hs hreset hstep
  rcases step_eq_next_cases hstep with ⟨hi, rfl⟩ | ⟨e, rest, hi, rfl⟩
  · exact ⟨⟨rfl, rfl, rfl, rfl, rfl⟩, hs, fun hcommand => by simp [State.commandNext, hi] at hcommand⟩
  · cases e with
    | reset => simp [State.resetNext, hi] at hreset
    | resetDuring tr => simp [State.resetNext, hi] at hreset
    | command tr =>
      obtain ⟨st, hst, hafter⟩ := afterCommand_ended tr (s := withInputs rest s) ((ended_iff s).1 hs)
      rw [hafter]
      exact ⟨sameRegisters_trans (withInputs_sameRegisters rest s) (respond_sameRegisters _ _ _), hs,
        fun _ => ⟨⟨st, []⟩, respond_response _ _ _, rfl, hst⟩⟩

theorem transcript_idle {s : State} (n : Nat) (hs : s.inputs = []) : transcript (n + 1) s = transcript n s := by
  have hcommand : s.commandNext = false := by rw [State.commandNext, hs]
  rw [transcript_succ n (step_idle hs), hcommand]
  rfl

/-- Settles O44, by induction on the number of steps: the response of a step is that of `afterCommand_ended`, and the state
after it has ended too. -/
theorem endedRunAnswersNoData : Obligations.EndedRunAnswersNoData := by
  intro n
  induction n with
  | zero => exact fun _ _ _ _ hr => absurd hr List.not_mem_nil
  | succ n ih =>
    intro s hp hcommands r hr
    cases hi : s.inputs with
    | nil =>
      rw [transcript_idle n hi] at hr
      exact ih s hp hcommands r hr
    | cons e rest =>
      rw [hi, NoReset, List.forall_mem_cons] at hcommands
      obtain ⟨⟨tr, rfl⟩, hrest⟩ := hcommands
      obtain ⟨st, hst, hafter⟩ := afterCommand_ended tr (s := withInputs rest s) hp
      rw [transcript_command n hi hafter (respond_response _ _ _), List.mem_cons] at hr
      rcases hr with rfl | hr
      · exact ⟨rfl, hst⟩
      · exact ih (respond st [] (withInputs rest s)) hp hrest r hr

/-! ### The response that ends an open computation -/

theorem EngineError.status_ne_ok (e : EngineError) : e.status ≠ .ok := by cases e <;> decide

/-- R130: in ACCUM a transaction enters an error, or is an UPDATE that goes on, or a FINALIZE. -/
theorem afterCommand_accum_cases (tr : Transaction) {s : State} (hp : s.PHASE = .accum) :
    (∃ e, afterEvent (.command tr) s = raiseError e s) ∨
    (∃ d, afterEvent (.command tr) s = respond .ok [] (absorbAll d s)) ∨
    (decode tr = .ok .finalize ∧ afterEvent (.command tr) s = finalizeBody s) := by
  rcases afterCommand_cases tr s with ⟨-, h⟩ | ⟨-, hne, -⟩ | ⟨-, -, -, -, h⟩ | ⟨-, d, -, -, h⟩ | ⟨-, hd, h⟩
  · exact .inl ⟨_, h⟩
  · exact absurd hp hne
  · exact .inl ⟨_, h⟩
  · exact .inr (.inl ⟨d, h⟩)
  · exact .inr (.inr ⟨hd, h⟩)

/-- R199: the phase that a transaction leaves an open computation in, read off its response: FINAL from OK with the digest to
a FINALIZE, FAILED from an error. -/
theorem afterCommand_ends_iff (tr : Transaction) {s : State} (hp : s.PHASE = .accum) :
    ((afterEvent (.command tr) s).PHASE = .final ↔ decode tr = .ok .finalize ∧
      ∃ r, (afterEvent (.command tr) s).response = some r ∧ r.status = .ok ∧ r.data.length = 64) ∧
    ((afterEvent (.command tr) s).PHASE = .failed ↔
      ∃ r, (afterEvent (.command tr) s).response = some r ∧ r.status ≠ .ok) := by
  rcases afterCommand_accum_cases tr hp with ⟨e, h⟩ | ⟨d, h⟩ | ⟨hd, h⟩ <;> rw [h]
  · simp [raiseError_PHASE_accum e hp, EngineError.status_ne_ok]
  · simp [absorbAll_PHASE, hp]
  · simp [hd, finalizeBody_response, emit_length]

/-- Settles O39, by the event: an idle step and a reset leave the computation open and answer no command, and a transaction
is the lemma above. -/
theorem computationEndsWithItsResponse : Obligations.ComputationEndsWithItsResponse := by
  intro s t hs hstep
  have hp : s.PHASE = .accum := (not_ended_iff s).1 hs
  rw [endedSuccessfully_iff, endedInFailure_iff]
  rcases step_eq_next_cases hstep with ⟨hi, rfl⟩ | ⟨e, rest, hi, rfl⟩
  · simp [hp, hi]
  · cases e with
    | reset => simp [hi]
    | resetDuring tr => simp [hi]
    | command tr =>
      obtain ⟨hfinal, hfailed⟩ := afterCommand_ends_iff tr (s := withInputs rest s) hp
      rw [hfinal, hfailed]
      simp [hi]

end Sys2Proof.Machine
end
